-- ==== Sys2Proof/Word.lean ====
section
/-! DEFINITION. The word of the Intcode VM core and its plainest arithmetic (spec/00_scope.md R6, R7, R8, R9).

A word is a signed integer between `wordMin` and `wordMax`. It is held as 64 bits in two's complement, which
spec/20_memory.md R58 allows, and it is read ONLY through its signed value `BitVec.toInt`: no definition of the model
looks at a bit, wraps, shifts or masks. All arithmetic is on `Int` (R7). -/

namespace Sys2Proof

/-- One memory cell, parameter word, relative base or I/O value (R6). Its value is `w.toInt`. -/
abbrev Word := BitVec 64

/-- `WORD_MIN`, the least word (R6; the spec's decision D1). -/
def wordMin : Int := -9223372036854775808

/-- `WORD_MAX`, the greatest word (R6; the spec's decision D1). -/
def wordMax : Int := 9223372036854775807

/-- `x` lies in `[WORD_MIN, WORD_MAX]`. -/
abbrev InWord (x : Int) : Prop := wordMin ≤ x ∧ x ≤ wordMax

/-- The word whose value is `x`, for an `x` in the word range: every use is guarded by `InWord`. -/
def Word.ofInt (x : Int) : Word := BitVec.ofInt 64 x

end Sys2Proof
end

