-- ==== Sys2Proof/Config.lean ====
section
/-! DEFINITION. What the spec leaves to the host of an instance: the answers of an unconstrained input source.

The one OPEN parameter of the spec, `MEM_LIMIT` (R6, R70), is an argument of the model: it stands in `State.memLimit`,
so that a statement about every state holds for every limit. -/

namespace Sys2Proof

/-- The three things an input source can do with one request (spec/42_io.md R152): answer a word, answer that no
input is available, or never answer. -/
inductive InputAnswer where
  /-- `Value(v)`. -/
  | value (v : Word)
  /-- `Unavailable`: the callback failed or is exhausted. -/
  | unavailable
  /-- The request is never answered, or is not answered yet: the instance is stuck (R125). -/
  | noAnswer
  deriving DecidableEq, Repr, Inhabited

/-- FREE VALUE (log entry 5): what the unconstrained host number `host` answers to input ordinal `k`. It has no body,
so nothing can be proved about an answer: "each request may answer any `Word`, may answer `Unavailable`, or may never
answer" (spec/47_host_interface.md R217). -/
opaque Config.hostAnswer : (host : Nat) → (k : Nat) → InputAnswer

end Sys2Proof
end

