-- ==== Sys2Proof/Machine/State.lean ====
section
/-! DEFINITION. The state of one instance (spec/10_state.md R20), the fault kinds (spec/60_exceptions.md R240) and the
reset state (spec/70_reset_and_hazards.md R280). Plain data: no field is a function. -/

namespace Sys2Proof.Machine

/-- The engine faults, the spec's `FaultKind` (R240, codes 2 to 7). The engine RECORDS one in `State.fault` when an
instruction raises it and the step answers a next state (R119, R120); the machine ANSWERS it as a `Host.Outcome.fault` only
when it is stepped again while the record holds it: then no step runs (R214, R252). Safe: nothing runs after it. -/
inductive Fault where
  /-- Recorded by the fetch when the instruction word's opcode is not supported (R242). Safe: the spec's own stop. -/
  | unknownOpcode
  /-- Recorded by operand resolution, or by a taken jump to a negative target (R243). Safe: the spec's own stop. -/
  | invalidAddress
  /-- Recorded by IN when the adapter answers `Unavailable` (R244). Safe: the spec's own stop. -/
  | inputUnavailable
  /-- Recorded by decode when a mode digit within the arity is 3 to 9 (R245). Safe: the spec's own stop. -/
  | malformedParameter
  /-- Recorded by ADD, MUL, ARB and relative addressing on an exact result outside the word range (R246). Safe: the
  spec's own stop. -/
  | arithmeticOverflow
  /-- Recorded by a memory write at or above the memory limit (R247). Safe: the spec's own stop. -/
  | memoryExhausted
  deriving DecidableEq, Repr

/-- Why the machine takes no step, or turns a host transaction away, without a fault. The state is unchanged. -/
inductive Refusal where
  /-- Raised by `exec` for an instruction without a meaning: none in this model. Safe. -/
  | notModelled (mnemonic : String)
  /-- Raised by `step` while no entry point has been called yet, `run = Idle`: the spec has no step there (R111). Safe. -/
  | notStarted
  /-- Raised by `step` while `run = Paused`: only an entry-point call wakes the instance (R111, R259). Safe. -/
  | paused
  /-- Raised by `step` once `run = Halted`, which is terminal (R27, R111). Safe. -/
  | halted
  /-- Raised by IN while the adapter has not answered: the step is not enabled, the instance is stuck, and an answer
  lifts it (R125, R126). Safe. -/
  | awaitingInput
  /-- Raised by an entry-point call while another is in progress (R215). Safe. -/
  | callInProgress
  /-- Raised by `patch` and `setInputAdapter` outside `Idle` (R204, R206). Safe. -/
  | notIdle
  /-- Raised by `patch` at or above the memory limit (R204). Safe. -/
  | patchBeyondLimit
  deriving DecidableEq, Repr

/-- One listed memory cell: an address and the word there. The unit of addressing is one word (R50). -/
abbrev Cell := Nat × Word

/-- The Memory `M` of an instance (R22): a list of words of length `len`, held sparsely. `cells` lists the cells that do
not hold 0, addresses strictly rising; every other address reads 0 (R51). -/
structure Memory where
  cells : List Cell
  len : Nat
  deriving DecidableEq, Repr

/-- The Run State (R27). -/
inductive RunState where
  | idle
  | running
  /-- The source's "Paused-after-output". -/
  | paused
  | halted
  deriving DecidableEq, Repr

/-- The record of the fault an instance stopped on: its kind and the address of the faulting instruction (R31). -/
structure FaultRecord where
  kind : Fault
  addr : Nat
  deriving DecidableEq, Repr

/-- What an input source does once its listed answers are used up. -/
inductive AfterLast where
  /-- Every further request is answered `Unavailable`: an exhausted list (D27), or a channel whose sender has
  exited (R222). -/
  | unavailable
  /-- Further requests are not answered until the host sends more: an open channel (R220). -/
  | noAnswer
  /-- Further requests are answered by the unconstrained host of this number (`Config.hostAnswer`). -/
  | unconstrained (host : Nat)
  deriving DecidableEq, Repr

/-- A bound input source (R32, R152) as plain data: ordinal `k` is answered by `answers[k]`, and beyond the list as
`after` says (log entry 6). -/
structure Adapter where
  answers : List Word
  after : AfterLast
  deriving DecidableEq, Repr

/-- The state of one instance (R20), with the two fields the spec keeps as arguments or locals. -/
structure State where
  /-- `M`, the memory (R22). -/
  mem : Memory
  /-- `ip`, the instruction pointer (R24). -/
  ip : Nat
  /-- `rb`, the relative base (R26). -/
  rb : Word
  /-- `run`, the Run State (R27). -/
  run : RunState
  /-- `out`, the Output Log, oldest first (R29). -/
  out : List Word
  /-- `cursor`, the Input Cursor: how many inputs have been requested (R30). -/
  cursor : Nat
  /-- `fault`, the sticky fault record (R31). -/
  fault : Option FaultRecord
  /-- `adapter`, the bound input source (R32). -/
  adapter : Adapter
  /-- The local `n0` of a `run_to_next_output` in progress (R209): the length of `out` when it was called; `none` while
  no such call is in progress. The MODEL's field (log entry 4). -/
  nextOutputFrom : Option Nat
  /-- The OPEN parameter `MEM_LIMIT` (R6, R70), an argument of the model. The MODEL's field (log entry 3). -/
  memLimit : Option Nat
  deriving DecidableEq, Repr

/-- The default (unset) adapter: the unconstrained host of the given number (R217; log entry 5). -/
def Adapter.unset (host : Nat) : Adapter := { answers := [], after := .unconstrained host }

/-- The instance right after reset (R203, R280), before the tokens of a program are placed: the memory lists nothing
(log entry 2), no entry point has been called, and there is no memory limit (log entry 3). -/
def State.reset : State :=
  { mem := { cells := [], len := 0 }
    ip := 0
    rb := 0#64
    run := .idle
    out := []
    cursor := 0
    fault := none
    adapter := Adapter.unset 0
    nextOutputFrom := none
    memLimit := none }

end Sys2Proof.Machine
end

