-- ==== Sys2Proof/Machine/Flags.lean ====
section
/-! DEFINITION. The core has no flags, condition codes or predicate registers (spec/10_state.md R35). This file holds what
stands in their place: the range check of an arithmetic result (spec/41_arithmetic.md R142), the words 1 and 0 a
comparison writes (spec/44_compare.md R170, R171), and the tests of JT and JF (spec/43_jumps.md R160, R161). -/

namespace Sys2Proof.Machine

/-- `checkWord(x)` (R142): the exact result as a word, or `ArithmeticOverflow` if it is outside the word range. -/
def checkWord (x : Int) : Except Fault Word :=
  if InWord x then .ok (Word.ofInt x) else .error .arithmeticOverflow

/-- The word a comparison writes: 1 if it holds, else 0 (R170, R171). -/
def truthWord (b : Bool) : Word := if b then 1#64 else 0#64

/-- `v_1 < v_2` on signed values (R172). -/
def lessThan (v1 v2 : Word) : Bool := decide (v1.toInt < v2.toInt)

/-- `v_1 = v_2` on signed values (R172). -/
def equalTo (v1 v2 : Word) : Bool := decide (v1.toInt = v2.toInt)

/-- JT's test: any non-zero value is true, negative values included (R160). -/
def wordIsTrue (v : Word) : Bool := decide (v.toInt ≠ 0)

/-- JF's test: only 0 is false (R161). -/
def wordIsFalse (v : Word) : Bool := decide (v.toInt = 0)

end Sys2Proof.Machine
end

