-- ==== Sys2Proof/Syntax.lean ====
section
/-! DEFINITION. The instructions of the Intcode VM core as syntax: opcodes, arities and parameter roles
(spec/30_encoding.md R80 to R84) and the ten instructions with their parameters. -/

namespace Sys2Proof

/-- The three addressing modes (spec/20_memory.md R55). -/
inductive Mode where
  | position
  | immediate
  | relative
  deriving DecidableEq, Repr

/-- A parameter: "a (raw integer, addressing mode) pair" (R85). -/
structure Param where
  mode : Mode
  raw : Word
  deriving DecidableEq, Repr

/-- The instructions, one constructor per row of the opcode table (R83). -/
inductive Instr where
  /-- ADD, opcode 1: `p3 <- p1 + p2`. -/
  | add (p1 p2 p3 : Param)
  /-- MUL, opcode 2: `p3 <- p1 * p2`. -/
  | mul (p1 p2 p3 : Param)
  /-- IN, opcode 3: `p1 <-` the next requested input. -/
  | input (p1 : Param)
  /-- OUT, opcode 4: append `p1` to the Output Log. -/
  | output (p1 : Param)
  /-- JT, opcode 5: jump to `p2` if `p1 ≠ 0`. -/
  | jt (p1 p2 : Param)
  /-- JF, opcode 6: jump to `p2` if `p1 = 0`. -/
  | jf (p1 p2 : Param)
  /-- LT, opcode 7: `p3 <- 1` if `p1 < p2`, else 0. -/
  | lt (p1 p2 p3 : Param)
  /-- EQ, opcode 8: `p3 <- 1` if `p1 = p2`, else 0. -/
  | eq (p1 p2 p3 : Param)
  /-- ARB, opcode 9: add `p1` to the relative base. -/
  | arb (p1 : Param)
  /-- HALT, opcode 99. -/
  | halt
  deriving DecidableEq, Repr

/-- How an instruction uses a parameter (R84). -/
inductive Role where
  /-- Its value is an operand. -/
  | read
  /-- It names the cell written. -/
  | write
  deriving DecidableEq, Repr

/-- The opcode number of an instruction (R83). -/
def Instr.opcode : Instr → Nat
  | .add _ _ _ => 1
  | .mul _ _ _ => 2
  | .input _ => 3
  | .output _ => 4
  | .jt _ _ => 5
  | .jf _ _ => 6
  | .lt _ _ _ => 7
  | .eq _ _ _ => 8
  | .arb _ => 9
  | .halt => 99

/-- The parameters of an instruction, in parameter order (R80). -/
def Instr.params : Instr → List Param
  | .add p1 p2 p3 => [p1, p2, p3]
  | .mul p1 p2 p3 => [p1, p2, p3]
  | .input p1 => [p1]
  | .output p1 => [p1]
  | .jt p1 p2 => [p1, p2]
  | .jf p1 p2 => [p1, p2]
  | .lt p1 p2 p3 => [p1, p2, p3]
  | .eq p1 p2 p3 => [p1, p2, p3]
  | .arb p1 => [p1]
  | .halt => []

/-- The roles of an instruction's parameters, in parameter order (R83, R84). -/
def Instr.roles : Instr → List Role
  | .add _ _ _ => [.read, .read, .write]
  | .mul _ _ _ => [.read, .read, .write]
  | .input _ => [.write]
  | .output _ => [.read]
  | .jt _ _ => [.read, .read]
  | .jf _ _ => [.read, .read]
  | .lt _ _ _ => [.read, .read, .write]
  | .eq _ _ _ => [.read, .read, .write]
  | .arb _ => [.read]
  | .halt => []

/-- The number of parameters an opcode takes; `none` for an opcode outside the supported set (R83, R90). -/
def arityOf (op : Int) : Option Nat :=
  if op = 1 ∨ op = 2 ∨ op = 7 ∨ op = 8 then some 3
  else if op = 5 ∨ op = 6 then some 2
  else if op = 3 ∨ op = 4 ∨ op = 9 then some 1
  else if op = 99 then some 0
  else none

/-- The arity of an instruction: how many parameters it has (R83). -/
def Instr.arity (i : Instr) : Nat := i.params.length

/-- The number of words an instruction takes, `1 + n` (R80). -/
def Instr.length (i : Instr) : Nat := i.arity + 1

end Sys2Proof
end

