-- ==== Sys2Proof/Decode.lean ====
section
/-! DEFINITION. The instruction decoder and the encoder (spec/30_encoding.md R80 to R93).

The decoder takes the words that stand at the instruction's address, instruction word first; a word beyond the list
reads 0, as a cell beyond memory does (R85). It is total: an instruction or one of the two decode faults (R91). -/

namespace Sys2Proof

/-- The two ways a word can fail to decode (R91). -/
inductive DecodeFault where
  /-- The opcode is not in the supported set (R90). -/
  | unknownOpcode
  /-- A mode digit of a parameter within the arity is 3 to 9 (R87). -/
  | malformedParameter
  deriving DecidableEq, Repr

/-- `tmod(w, 100)`, the opcode field; truncating, so a negative word has no supported opcode (R8, R81, R89). -/
def opcodeField (w : Word) : Int := w.toInt.tmod 100

/-- `digit(w, k)`: decimal digit `k` of the word, digit 0 the units (R9). -/
def digit (w : Word) (k : Nat) : Int := (w.toInt.tdiv (10 ^ k)).tmod 10

/-- The addressing mode that a mode digit stands for; 3 to 9 stand for none (R55, R87). -/
def modeOfDigit (d : Int) : Option Mode :=
  if d = 0 then some .position
  else if d = 1 then some .immediate
  else if d = 2 then some .relative
  else none

/-- The mode of parameter `i`, from digit `i + 1` of the instruction word (R81, R85, R87). -/
def modeOf (w : Word) (i : Nat) : Except DecodeFault Mode :=
  match modeOfDigit (digit w (i + 1)) with
  | some m => .ok m
  | none => .error .malformedParameter

/-- Word `i` after the instruction word: the raw word of parameter `i` (R80, R85). -/
def rawWord (ws : List Word) (i : Nat) : Word := ws.getD i 0#64

/-- Format F1: one mode digit, then one raw word (R82, R91). -/
def decodeF1 (mk : Param → Instr) (ws : List Word) : Except DecodeFault Instr :=
  match modeOf (rawWord ws 0) 1 with
  | .error e => .error e
  | .ok m1 => .ok (mk ⟨m1, rawWord ws 1⟩)

/-- Format F2: two mode digits, parameter 1 first, then two raw words (R82, R91). -/
def decodeF2 (mk : Param → Param → Instr) (ws : List Word) : Except DecodeFault Instr :=
  match modeOf (rawWord ws 0) 1 with
  | .error e => .error e
  | .ok m1 =>
    match modeOf (rawWord ws 0) 2 with
    | .error e => .error e
    | .ok m2 => .ok (mk ⟨m1, rawWord ws 1⟩ ⟨m2, rawWord ws 2⟩)

/-- Format F3: three mode digits, parameter 1 first, then three raw words (R82, R91). -/
def decodeF3 (mk : Param → Param → Param → Instr) (ws : List Word) : Except DecodeFault Instr :=
  match modeOf (rawWord ws 0) 1 with
  | .error e => .error e
  | .ok m1 =>
    match modeOf (rawWord ws 0) 2 with
    | .error e => .error e
    | .ok m2 =>
      match modeOf (rawWord ws 0) 3 with
      | .error e => .error e
      | .ok m3 => .ok (mk ⟨m1, rawWord ws 1⟩ ⟨m2, rawWord ws 2⟩ ⟨m3, rawWord ws 3⟩)

/-- `Decode` (R91): the opcode check first, then the mode digits in parameter order, then the raw words. -/
def decode (ws : List Word) : Except DecodeFault Instr :=
  let op := opcodeField (rawWord ws 0)
  if op = 1 then decodeF3 .add ws
  else if op = 2 then decodeF3 .mul ws
  else if op = 3 then decodeF1 .input ws
  else if op = 4 then decodeF1 .output ws
  else if op = 5 then decodeF2 .jt ws
  else if op = 6 then decodeF2 .jf ws
  else if op = 7 then decodeF3 .lt ws
  else if op = 8 then decodeF3 .eq ws
  else if op = 9 then decodeF1 .arb ws
  else if op = 99 then .ok .halt
  else .error .unknownOpcode

/-- The digit of a mode (R55). -/
def Mode.digit : Mode → Int
  | .position => 0
  | .immediate => 1
  | .relative => 2

/-- The mode digits of an instruction as one number: `100*m_1 + 1000*m_2 + 10000*m_3` when `scale` is 100 (R93). -/
def modeDigits : (scale : Int) → List Param → Int
  | _, [] => 0
  | scale, p :: ps => scale * p.mode.digit + modeDigits (scale * 10) ps

/-- The value of the canonical instruction word, absent modes taken as 0 (R93). -/
def canonicalValue (i : Instr) : Int := (i.opcode : Int) + modeDigits 100 i.params

/-- The encoder: the canonical instruction word, then the raw words in parameter order (R80, R93, R94). -/
def encode (i : Instr) : List Word := Word.ofInt (canonicalValue i) :: i.params.map Param.raw

/-- The four words of an instruction whose bits are `w`, numbered as the opcode table numbers them: bit 0 is the least
significant bit of the first word, and each further word's 64 bits count on from there; bits from `nbits` up are 0. The
longest instruction has four words (R80). The ISA itself has no bits (R9, R58): log entry 8. -/
def tableWords (nbits w : Nat) : List Word :=
  let v := w % 2 ^ nbits
  [BitVec.ofNat 64 v, BitVec.ofNat 64 (v / 2 ^ 64), BitVec.ofNat 64 (v / 2 ^ 128), BitVec.ofNat 64 (v / 2 ^ 192)]

/-- What the decoder reads from an instruction whose bits are `w`; `none` where it refuses. -/
def decodeTableWord (nbits w : Nat) : Option Instr :=
  match decode (tableWords nbits w) with
  | .ok i => some i
  | .error _ => none

end Sys2Proof
end

