-- ==== Sys2Proof/Machine/Ops.lean ====
section
/-! DEFINITION. The named operations over the state: memory reads and writes (spec/20_memory.md R51, R52, R70), the
instruction pointer (R116), the relative base (R26), the Output Log (R153), the Input Cursor and the input adapter (R150,
R152), taking a fault (R120), and reading an instruction's words (R112, R115). -/

namespace Sys2Proof.Machine

/-- The value listed for address `a` in a list of cells; an address that is not listed holds 0. -/
def lookupCell : List Cell → Nat → Word
  | [], _ => 0#64
  | (b, w) :: rest, a => if b = a then w else lookupCell rest a

/-- The cells without address `a`. -/
def eraseCell : List Cell → Nat → List Cell
  | [], _ => []
  | (b, w) :: rest, a => if b = a then eraseCell rest a else (b, w) :: eraseCell rest a

/-- Put `(a, v)` before the first cell of a higher address. -/
def insertCell : List Cell → Nat → Word → List Cell
  | [], a, v => [(a, v)]
  | (b, w) :: rest, a, v => if a < b then (a, v) :: (b, w) :: rest else (b, w) :: insertCell rest a v

/-- Store `v` at `a`; storing what an unlisted address reads as removes the cell. -/
def storeCell (cells : List Cell) (a : Nat) (v : Word) : List Cell :=
  if v = 0#64 then eraseCell cells a else insertCell (eraseCell cells a) a v

/-- Cells from address `lo` up in canonical form: strictly rising, none holding 0, all below `len`. -/
def cellsWf (lo len : Nat) : List Cell → Bool
  | [] => true
  | (a, v) :: rest => decide (lo ≤ a) && decide (a < len) && decide (v ≠ 0#64) && cellsWf (a + 1) len rest

/-- The canonical form of a memory: equal memories are equal data. -/
def Memory.wf (m : Memory) : Bool := cellsWf 0 m.len m.cells

/-- `MemRead(a)` (R51): cell `a`, or 0 beyond the memory's end, where a memory in canonical form lists nothing. It never
fails and changes nothing. -/
def Memory.read (m : Memory) (a : Nat) : Word := lookupCell m.cells a

/-- The store of `MemWrite(a, v)` (R52): grow the memory with zero cells if `a` is beyond its end, then store. -/
def Memory.write (m : Memory) (a : Nat) (v : Word) : Memory :=
  { cells := storeCell m.cells a v, len := max m.len (a + 1) }

/-- The nonzero words of a list as cells, the first word at address `base`. -/
def cellsFrom (base : Nat) : List Word → List Cell
  | [] => []
  | w :: ws => if w = 0#64 then cellsFrom (base + 1) ws else (base, w) :: cellsFrom (base + 1) ws

/-- The memory that holds exactly the words of a list, from address 0 (R22, R61). -/
def Memory.ofList (ws : List Word) : Memory := { cells := cellsFrom 0 ws, len := ws.length }

/-- A memory limit forbids a write at `a`: `MEM_LIMIT = some L` and `a ≥ L` (R52, R70). -/
def beyondLimit (limit : Option Nat) (a : Nat) : Bool :=
  match limit with
  | none => false
  | some bound => decide (bound ≤ a)

/-- `MemWrite(a, v)` (R52): `MemoryExhausted` before any change at or above the limit, else the store. -/
def State.memWrite (a : Nat) (v : Word) (s : State) : Except Fault State :=
  if beyondLimit s.memLimit a then .error .memoryExhausted else .ok { s with mem := s.mem.write a v }

/-- The default advance past an instruction of `n` words, right after decode (R116). -/
def State.advance (n : Nat) (s : State) : State := { s with ip := s.ip + n }

/-- `ip <- t`, a taken jump (R24). -/
def State.setIp (t : Nat) (s : State) : State := { s with ip := t }

/-- `rb <- v` (R26). -/
def State.setRb (v : Word) (s : State) : State := { s with rb := v }

/-- `OutputAppend(v)` (R153): append to the Output Log and nothing else. -/
def State.outputAppend (v : Word) (s : State) : State := { s with out := s.out ++ [v] }

/-- `cursor <- k + 1`: one more input has been requested (R150). -/
def State.countRequest (s : State) : State := { s with cursor := s.cursor + 1 }

/-- What an input source that has run out of listed answers does with ordinal `k`. -/
def AfterLast.answer (r : AfterLast) (k : Nat) : InputAnswer :=
  match r with
  | .unavailable => .unavailable
  | .noAnswer => .noAnswer
  | .unconstrained host => Config.hostAnswer host k

/-- `InputRequest(k)` (R152): the adapter is given the ordinal and nothing else. -/
def Adapter.request (ad : Adapter) (k : Nat) : InputAnswer :=
  match ad.answers[k]? with
  | some v => .value v
  | none => ad.after.answer k

/-- `adapter <- src` (R206). -/
def State.bindAdapter (src : Adapter) (s : State) : State := { s with adapter := src }

/-- TAKING A FAULT (R120), the one exception mechanism of the core: record the kind and the address `a` of the faulting
instruction. Nothing is rolled back (R119), nothing else changes (R251), and there is no vector, handler or return (R252),
so no operation stands beside it that clears the record. -/
def State.raise (k : Fault) (a : Nat) (s : State) : State := { s with fault := some { kind := k, addr := a } }

/-- End a sub-step of the instruction at `a` that started in `s`: its result, or the fault it raised recorded in `s`
(R119, R120). -/
def State.finish (a : Nat) (s : State) (r : Except Fault State) : State :=
  match r with
  | .ok t => t
  | .error k => s.raise k a

/-- The fault kind that a decode fault is recorded as (R91, R242, R245). -/
def faultOfDecode : DecodeFault → Fault
  | .unknownOpcode => .unknownOpcode
  | .malformedParameter => .malformedParameter

/-- The words at `ip`, as many as the longest instruction has (R80, R112, R115). Reads have no effect (R60), so reading
words a shorter instruction does not have cannot be seen. -/
def State.fetchWords (s : State) : List Word :=
  [s.mem.read s.ip, s.mem.read (s.ip + 1), s.mem.read (s.ip + 2), s.mem.read (s.ip + 3)]

/-- Store a list of words from address `a` up, last word first. -/
def Memory.writeList (m : Memory) (a : Nat) : List Word → Memory
  | [] => m
  | w :: ws => (m.writeList (a + 1) ws).write a w

end Sys2Proof.Machine
end

