-- ==== Sys2Proof/Machine/Operands.lean ====
section
/-! DEFINITION. Operand resolution (spec/20_memory.md R54 to R57, spec/40_execution_cycle.md R117) and the shared shapes of
the instructions that resolve operands. -/

namespace Sys2Proof.Machine

/-- The address a position-mode raw word names; a negative one is `InvalidAddress` (R55, R56). -/
def positionAddress (d : Word) : Except Fault Nat :=
  if d.toInt < 0 then .error .invalidAddress else .ok d.toInt.toNat

/-- `RelAddr(d)` (R57): the exact sum `rb + d`; negative is `InvalidAddress`, above `WORD_MAX` `ArithmeticOverflow`. -/
def relativeAddress (rb d : Word) : Except Fault Nat :=
  let e := rb.toInt + d.toInt
  if e < 0 then .error .invalidAddress
  else if wordMax < e then .error .arithmeticOverflow
  else .ok e.toNat

/-- `ReadOperand(m, d)` (R55): the value of a read parameter. -/
def State.readOperand (s : State) (p : Param) : Except Fault Word :=
  match p.mode with
  | .position =>
    match positionAddress p.raw with
    | .error k => .error k
    | .ok a => .ok (s.mem.read a)
  | .immediate => .ok p.raw
  | .relative =>
    match relativeAddress s.rb p.raw with
    | .error k => .error k
    | .ok a => .ok (s.mem.read a)

/-- `WriteAddress(m, d)` (R56): the cell a write parameter names; immediate mode names none. -/
def State.writeAddress (s : State) (p : Param) : Except Fault Nat :=
  match p.mode with
  | .position => positionAddress p.raw
  | .immediate => .error .invalidAddress
  | .relative => relativeAddress s.rb p.raw

/-- Assign a jump target: a negative one is `InvalidAddress` and leaves `ip` alone (R160, R162). -/
def State.jumpTo (v : Word) (s : State) : Except Fault State :=
  if v.toInt < 0 then .error .invalidAddress else .ok (s.setIp v.toInt.toNat)

/-- Resolve two read parameters in order, then go on with their values (R117). -/
def State.withTwoReads (s : State) (p1 p2 : Param) (go : Word → Word → Except Fault State) : Except Fault State :=
  match s.readOperand p1 with
  | .error k => .error k
  | .ok v1 =>
    match s.readOperand p2 with
    | .error k => .error k
    | .ok v2 => go v1 v2

/-- An instruction of format F3 (R82, R122): advance, resolve the two operands and then the target, compute, write. -/
def State.computeInto (f : Word → Word → Except Fault Word) (p1 p2 p3 : Param) (s : State) : State :=
  let s1 := s.advance 4
  s1.finish s.ip (s1.withTwoReads p1 p2 fun v1 v2 =>
    match s1.writeAddress p3 with
    | .error k => .error k
    | .ok t =>
      match f v1 v2 with
      | .error k => .error k
      | .ok r => s1.memWrite t r)

/-- An instruction of format F2 (R82, R122): advance, resolve both operands, and jump to the second if the first meets
the test; a jump not taken leaves the advanced `ip` (R116). -/
def State.jumpWhen (test : Word → Bool) (p1 p2 : Param) (s : State) : State :=
  let s1 := s.advance 3
  s1.finish s.ip (s1.withTwoReads p1 p2 fun v1 v2 => if test v1 then s1.jumpTo v2 else .ok s1)

/-- An instruction of format F1 with a read parameter (R82, R122): advance, resolve, apply the effect. -/
def State.useOperand (effect : Word → State → Except Fault State) (p1 : Param) (s : State) : State :=
  let s1 := s.advance 2
  s1.finish s.ip
    (match s1.readOperand p1 with
     | .error k => .error k
     | .ok v1 => effect v1 s1)

end Sys2Proof.Machine
end

