-- ==== Sys2Proof/Machine/Arithmetic.lean ====
section
/-! DEFINITION. ADD and MUL (spec/41_arithmetic.md R140 to R143). -/

namespace Sys2Proof.Machine

/-- ADD (R140): `MemWrite(t_3, checkWord(v_1 + v_2))`. -/
def execAdd (p1 p2 p3 : Param) (s : State) : Host.Outcome State Fault Refusal :=
  .next (s.computeInto (fun v1 v2 => checkWord (v1.toInt + v2.toInt)) p1 p2 p3)

/-- MUL (R141): `MemWrite(t_3, checkWord(v_1 * v_2))`. -/
def execMul (p1 p2 p3 : Param) (s : State) : Host.Outcome State Fault Refusal :=
  .next (s.computeInto (fun v1 v2 => checkWord (v1.toInt * v2.toInt)) p1 p2 p3)

end Sys2Proof.Machine
end

