-- ==== Sys2Proof/Machine/Compare.lean ====
section
/-! DEFINITION. LT and EQ (spec/44_compare.md R170 to R172). -/

namespace Sys2Proof.Machine

/-- LT (R170): `MemWrite(t_3, if v_1 < v_2 then 1 else 0)`. -/
def execLt (p1 p2 p3 : Param) (s : State) : Host.Outcome State Fault Refusal :=
  .next (s.computeInto (fun v1 v2 => .ok (truthWord (lessThan v1 v2))) p1 p2 p3)

/-- EQ (R171): `MemWrite(t_3, if v_1 = v_2 then 1 else 0)`. -/
def execEq (p1 p2 p3 : Param) (s : State) : Host.Outcome State Fault Refusal :=
  .next (s.computeInto (fun v1 v2 => .ok (truthWord (equalTo v1 v2))) p1 p2 p3)

end Sys2Proof.Machine
end

