-- ==== Sys2Proof/Machine/Halt.lean ====
section
/-! DEFINITION. HALT (spec/46_halt.md R190). -/

namespace Sys2Proof.Machine

/-- HALT (R190): after the default advance the step returns `Halt` and the entry point in progress sets `run <- Halted`;
R27 counts that assignment as the halting step's own write, and it is made here. -/
def execHalt (s : State) : Host.Outcome State Fault Refusal :=
  .next { s.advance 1 with run := .halted }

end Sys2Proof.Machine
end

