-- ==== Sys2Proof/Machine/InOut.lean ====
section
/-! DEFINITION. IN and OUT (spec/42_io.md R150, R151). -/

namespace Sys2Proof.Machine

/-- The end of an IN at `a` whose target `t` is resolved and whose request is still to be made, in the advanced state
(R150): the cursor counts the request whether it succeeds or fails; an unanswered request enables no step (R125, R126). -/
def State.receiveInto (a t : Nat) (s : State) : Host.Outcome State Fault Refusal :=
  match s.adapter.request s.cursor with
  | .noAnswer => .refused .awaitingInput
  | .unavailable => .next (s.countRequest.raise .inputUnavailable a)
  | .value v => .next (s.countRequest.finish a (s.countRequest.memWrite t v))

/-- IN (R150): the target is resolved before the input is requested (R117). -/
def execInput (p1 : Param) (s : State) : Host.Outcome State Fault Refusal :=
  match (s.advance 2).writeAddress p1 with
  | .error k => .next ((s.advance 2).raise k s.ip)
  | .ok t => (s.advance 2).receiveInto s.ip t

/-- OUT (R151): `OutputAppend(v_1)`. -/
def execOutput (p1 : Param) (s : State) : Host.Outcome State Fault Refusal :=
  .next (s.useOperand (fun v1 s1 => .ok (s1.outputAppend v1)) p1)

end Sys2Proof.Machine
end

