-- ==== Sys2Proof/Machine/Jumps.lean ====
section
/-! DEFINITION. JT and JF (spec/43_jumps.md R160 to R162). -/

namespace Sys2Proof.Machine

/-- JT (R160): jump to `v_2` if `v_1 ≠ 0`. -/
def execJt (p1 p2 : Param) (s : State) : Host.Outcome State Fault Refusal :=
  .next (s.jumpWhen wordIsTrue p1 p2)

/-- JF (R161): jump to `v_2` if `v_1 = 0`. -/
def execJf (p1 p2 : Param) (s : State) : Host.Outcome State Fault Refusal :=
  .next (s.jumpWhen wordIsFalse p1 p2)

end Sys2Proof.Machine
end

