-- ==== Sys2Proof/Machine/RelativeBase.lean ====
section
/-! DEFINITION. ARB (spec/45_relative_base.md R180, R181). -/

namespace Sys2Proof.Machine

/-- ARB (R180): `rb <- checkWord(rb + v_1)`; on an overflow `rb` is unchanged. -/
def execArb (p1 : Param) (s : State) : Host.Outcome State Fault Refusal :=
  .next (s.useOperand
    (fun v1 s1 =>
      match checkWord (s1.rb.toInt + v1.toInt) with
      | .error k => .error k
      | .ok r => .ok (s1.setRb r)) p1)

end Sys2Proof.Machine
end

