-- ==== Sys2Proof/Machine/RunControl.lean ====
section
/-! DEFINITION. The Suspend/Resume Controller around one step (spec/40_execution_cycle.md R111,
spec/47_host_interface.md R208 to R210, R214): when a step may be taken, and the controller's check right after it. -/

namespace Sys2Proof.Machine

/-- Why no step may be taken: a faulted instance answers its recorded fault (R214); otherwise a step needs
`run = Running` (R111). `none`: a step may be taken. -/
def State.noStepBecause (s : State) : Option (Host.Outcome State Fault Refusal) :=
  match s.fault with
  | some r => some (.fault r.kind)
  | none =>
    match s.run with
    | .idle => some (.refused .notStarted)
    | .paused => some (.refused .paused)
    | .halted => some (.refused .halted)
    | .running => none

/-- The Output Log has grown since the `run_to_next_output` in progress was called (R209). -/
def State.outputGrew (s : State) : Bool :=
  match s.nextOutputFrom with
  | none => false
  | some n0 => decide (n0 < s.out.length)

/-- The result of a step (R110). -/
inductive StepResult where
  /-- The instruction completed and was not HALT. -/
  | continues
  /-- The instruction was HALT. -/
  | halts
  /-- The step failed with this fault kind. -/
  | faults (kind : Fault)
  deriving DecidableEq, Repr

/-- The result of the step that left this state (R110): a step runs only without a fault and while `run = Running`, so a
recorded fault is the step's own and `Halted` was written by it. -/
def State.stepResult (s : State) : StepResult :=
  match s.fault with
  | some r => .faults r.kind
  | none =>
    match s.run with
    | .halted => .halts
    | _ => .continues

/-- The controller's check after a step (R210): a fault or a halt ends the call in progress; otherwise, in
`run_to_next_output`, a log that grew pauses the instance and ends the call. -/
def State.afterStep (s : State) : State :=
  match s.stepResult with
  | .faults _ => { s with nextOutputFrom := none }
  | .halts => { s with nextOutputFrom := none }
  | .continues => if s.outputGrew then { s with run := .paused, nextOutputFrom := none } else s

/-- A step that completes is followed by the controller's check; one that does not is not. -/
def completeStep (r : Host.Outcome State Fault Refusal) : Host.Outcome State Fault Refusal :=
  match r with
  | .next t => .next t.afterStep
  | .fault k => .fault k
  | .refused q => .refused q

/-- A decode fault is recorded at `ip` before the advance, with nothing else changed (R113, R114). -/
def State.decodeFailed (e : DecodeFault) (s : State) : Host.Outcome State Fault Refusal :=
  .next (s.raise (faultOfDecode e) s.ip)

/-- `s` with the words `ws` at `ip` and a `run_to_completion` call in progress (log entry 9). -/
def State.runningWith (ws : List Word) (s : State) : State :=
  { s with mem := s.mem.writeList s.ip ws, run := .running, fault := none, nextOutputFrom := none }

end Sys2Proof.Machine
end

