-- ==== Sys2Proof/Machine/Step.lean ====
section
/-! DEFINITION. One step of an instance (spec/40_execution_cycle.md R110, R111, R122) with the controller's check after it
(spec/47_host_interface.md R210). -/

namespace Sys2Proof.Machine

/-- `step()` and the controller's check: fetch and decode at `ip`, then run the instruction (R122). -/
def step (s : State) : Host.Outcome State Fault Refusal :=
  match s.noStepBecause with
  | some r => r
  | none =>
    match decode s.fetchWords with
    | .error e => completeStep (s.decodeFailed e)
    | .ok i => completeStep (exec i s)

/-- `s` with the instruction whose bits are `w` stored at `ip`, and with an entry-point call in progress, so that the next
step fetches and runs it: this stands for `load` and the first `run_to_completion` call (log entry 9). -/
def State.withFetchWord (s : State) (nbits w : Nat) : State := s.runningWith (tableWords nbits w)

end Sys2Proof.Machine
end

