-- ==== Sys2Proof/Machine/Loader.lean ====
section
/-! DEFINITION. `load`: the program text and the instance it creates (spec/47_host_interface.md R201 to R203), and the
numeric codes of the error and status kinds (spec/60_exceptions.md R240). -/

namespace Sys2Proof.Machine

/-- The pieces of a text between commas (R201). -/
def splitAtCommas : List Char → List (List Char)
  | [] => [[]]
  | c :: cs =>
    if c = ',' then [] :: splitAtCommas cs
    else
      match splitAtCommas cs with
      | [] => [[c]]
      | p :: ps => (c :: p) :: ps

/-- Whitespace: space, tab, CR, LF (R201). -/
def isBlank (c : Char) : Bool := c == ' ' || c == '\t' || c == '\r' || c == '\n'

/-- Remove leading and trailing whitespace (R201). -/
def trimPiece (p : List Char) : List Char := ((p.dropWhile isBlank).reverse.dropWhile isBlank).reverse

/-- The tokens of a program text: its trimmed pieces less the empty ones (R201). -/
def tokensOf (text : String) : List (List Char) :=
  ((splitAtCommas text.toList).map trimPiece).filter (fun p => !p.isEmpty)

/-- The value of a decimal digit. -/
def decimalDigit (c : Char) : Option Nat :=
  if 48 ≤ c.toNat ∧ c.toNat ≤ 57 then some (c.toNat - 48) else none

/-- The number that digits denote after the digits read so far denoted `acc`; `none` at a character that is no digit. -/
def digitsValue (acc : Nat) : List Char → Option Nat
  | [] => some acc
  | c :: cs =>
    match decimalDigit c with
    | none => none
    | some d => digitsValue (acc * 10 + d) cs

/-- `[0-9]+`: at least one digit (R201). -/
def naturalValue (p : List Char) : Option Nat :=
  match p with
  | [] => none
  | c :: cs => digitsValue 0 (c :: cs)

/-- `-?[0-9]+` as an integer (R201). -/
def integerValue (p : List Char) : Option Int :=
  match p with
  | '-' :: ds => (naturalValue ds).map (fun n : Nat => -(n : Int))
  | ds => (naturalValue ds).map (fun n : Nat => (n : Int))

/-- A valid token's word: an integer in the word range (R201). -/
def tokenWord (p : List Char) : Option Word :=
  match integerValue p with
  | none => none
  | some x => if InWord x then some (Word.ofInt x) else none

/-- The words of a list of tokens, if every one is valid (R202). -/
def tokenWords : List (List Char) → Option (List Word)
  | [] => some []
  | p :: ps =>
    match tokenWord p with
    | none => none
    | some w =>
      match tokenWords ps with
      | none => none
      | some ws => some (w :: ws)

/-- The instance a successful `load` of the words `ws` creates (R203, R280); `limit` is the model's argument
`MEM_LIMIT` (R6), and `host` the number of the unconstrained host behind the default adapter (R217). -/
def State.loaded (limit : Option Nat) (host : Nat) (ws : List Word) : State :=
  { State.reset with mem := Memory.ofList ws, adapter := Adapter.unset host, memLimit := limit }

/-- `load` (R202): `none` is the error `MalformedProgram`, raised by an invalid token or when there are no tokens; no
instance exists then (R241). -/
def load (limit : Option Nat) (host : Nat) (text : String) : Option State :=
  match tokenWords (tokensOf text) with
  | none => none
  | some [] => none
  | some (w :: ws) => some (State.loaded limit host (w :: ws))

/-- The numeric code of an engine fault (R240; the spec's decision D20). -/
def Fault.code : Fault → Nat
  | .unknownOpcode => 2
  | .invalidAddress => 3
  | .inputUnavailable => 4
  | .malformedParameter => 5
  | .arithmeticOverflow => 6
  | .memoryExhausted => 7

/-- The code of `MalformedProgram`, the error of `load` (R240). -/
def malformedProgramCode : Nat := 1

/-- The code of `NoOutputProduced`, a status and no fault (R240, R248). -/
def noOutputProducedCode : Nat := 0

end Sys2Proof.Machine
end

