-- ==== Sys2Proof/Machine/HostInterface.lean ====
section
/-! DEFINITION. The boundary interfaces of an instance (spec/47_host_interface.md R200): `patch`, `peek`,
`set_input_adapter`, `is_running`, `run_to_completion`, `run_to_next_output`. An entry point may never return (R287), so it
runs under a step budget. -/

namespace Sys2Proof.Machine

/-- `patch(a, v)` (R204): refused outside `Idle` and at or above the memory limit, else one memory write. -/
def State.patch (a : Nat) (v : Word) (s : State) : Host.Outcome State Fault Refusal :=
  match s.run with
  | .idle =>
    match s.memWrite a v with
    | .ok t => .next t
    | .error _ => .refused .patchBeyondLimit
  | _ => .refused .notIdle

/-- `peek(a)` (R205): a memory read, in any state. -/
def State.peek (a : Nat) (s : State) : Word := s.mem.read a

/-- `set_input_adapter(src)` (R206): bind an input source, in `Idle` only. -/
def State.setInputAdapter (src : Adapter) (s : State) : Host.Outcome State Fault Refusal :=
  match s.run with
  | .idle => .next (s.bindAdapter src)
  | _ => .refused .notIdle

/-- `is_running()` (R207). -/
def State.isRunning (s : State) : Bool :=
  match s.run with
  | .running => true
  | .paused => true
  | .idle => false
  | .halted => false

/-- The two entry points (R208, R209). -/
inductive EntryPoint where
  | runToCompletion
  | runToNextOutput
  deriving DecidableEq, Repr

/-- What an entry point returns (R200). -/
inductive CallResult where
  /-- `Ok(out)`, the whole Output Log since `load`. -/
  | ok (log : List Word)
  /-- `Value(v)`, the output just appended. -/
  | value (v : Word)
  /-- The program halted before a new output: a status, no fault (R248). -/
  | noOutputProduced
  /-- `Error(K)`. -/
  | error (kind : Fault)
  deriving DecidableEq, Repr

/-- What an entry point returns on a halted instance (R208, R209, R211). -/
def EntryPoint.haltedResult (e : EntryPoint) (out : List Word) : CallResult :=
  match e with
  | .runToCompletion => .ok out
  | .runToNextOutput => .noOutputProduced

/-- What calling an entry point does before its first step. -/
inductive CallStart where
  /-- It returns at once and changes nothing (R211, R214). -/
  | returned (r : CallResult)
  /-- It starts stepping from this state (R212, R213). -/
  | entered (s : State)
  /-- It is refused and changes nothing (R215). -/
  | refused (q : Refusal)
  deriving DecidableEq, Repr

/-- `run <- Running`, and `n0 <- |out|` in `run_to_next_output` (R208, R209). -/
def State.begin (e : EntryPoint) (s : State) : State :=
  match e with
  | .runToCompletion => { s with run := .running, nextOutputFrom := none }
  | .runToNextOutput => { s with run := .running, nextOutputFrom := some s.out.length }

/-- The head of an entry point (R208, R209): the recorded fault first (R214), then the Run State. -/
def State.enter (e : EntryPoint) (s : State) : CallStart :=
  match s.fault with
  | some r => .returned (.error r.kind)
  | none =>
    match s.run with
    | .halted => .returned (e.haltedResult s.out)
    | .running => .refused .callInProgress
    | .idle => .entered ((s.setIp 0).begin e)
    | .paused => .entered (s.begin e)

/-- What the entry point returns if the step just taken ended the call (R208, R209, R210). In `Paused` the log is not
empty and its last value is the one just appended. -/
def State.callResult (e : EntryPoint) (s : State) : Option CallResult :=
  match s.fault with
  | some r => some (.error r.kind)
  | none =>
    match s.run with
    | .halted => some (e.haltedResult s.out)
    | .paused => some (.value (s.out.getLastD 0#64))
    | .running => none
    | .idle => none

/-- How a call of an entry point stands after a number of steps. -/
inductive CallEnd where
  /-- It returned a result and left this state. -/
  | returned (r : CallResult) (s : State)
  /-- It is stuck on an unanswered input request in this state (R125); an answer lets it go on. -/
  | waiting (s : State)
  /-- It was refused; the state is unchanged. -/
  | refused (q : Refusal) (s : State)
  /-- The step budget ran out: no result of the core (R287). -/
  | outOfBudget (s : State)
  deriving DecidableEq, Repr

/-- The stepping loop of an entry point (R208, R209), at most `budget` steps. -/
def drive (e : EntryPoint) : (budget : Nat) → State → CallEnd
  | 0, s => .outOfBudget s
  | budget + 1, s =>
    match step s with
    | .next t =>
      match t.callResult e with
      | some r => .returned r t
      | none => drive e budget t
    | .fault k => .returned (.error k) s
    | .refused .awaitingInput => .waiting s
    | .refused q => .refused q s

/-- A call of an entry point under a step budget (R208, R209). -/
def State.call (e : EntryPoint) (budget : Nat) (s : State) : CallEnd :=
  match s.enter e with
  | .returned r => .returned r s
  | .refused q => .refused q s
  | .entered t => drive e budget t

/-- `run_to_completion()` (R208). -/
def State.runToCompletion (budget : Nat) (s : State) : CallEnd := s.call .runToCompletion budget

/-- `run_to_next_output()` (R209). -/
def State.runToNextOutput (budget : Nat) (s : State) : CallEnd := s.call .runToNextOutput budget

/-- Call `run_to_next_output` up to `calls` times, until it reports `NoOutputProduced`: the values it returned and the
last state; `none` if it ends in any other way (R218). -/
def State.drainOutputs (budget : Nat) : (calls : Nat) → State → Option (List Word × State)
  | 0, _ => none
  | calls + 1, s =>
    match s.runToNextOutput budget with
    | .returned .noOutputProduced t => some ([], t)
    | .returned (.value v) t =>
      match State.drainOutputs budget calls t with
      | some (vs, u) => some (v :: vs, u)
      | none => none
    | _ => none

end Sys2Proof.Machine
end

