-- ==== Sys2Proof/Machine/Pipeline.lean ====
section
/-! DEFINITION. The host's side: input channels, pipeline workers and a ring of instances (spec/47_host_interface.md R216,
R220 to R222). The orchestrator is outside the core (spec/00_scope.md R4); what stands here is what the core's contract
assumes of it. -/

namespace Sys2Proof.Machine

/-- The host sends a value on the channel an adapter receives from: channels are FIFO (R221), and a value sent on a
channel that is no longer open is lost (R222). The adapter stays the same callback; its answers are the host's (R216). -/
def Adapter.send (v : Word) (ad : Adapter) : Adapter :=
  match ad.after with
  | .noAnswer => { ad with answers := ad.answers ++ [v] }
  | _ => ad

/-- The sender of an open channel exits: further requests are answered `Unavailable` (R222). -/
def Adapter.close (ad : Adapter) : Adapter :=
  match ad.after with
  | .noAnswer => { ad with after := .unavailable }
  | _ => ad

/-- The host sends a value to an instance's input channel, at any time (R216). -/
def State.receiveFromHost (v : Word) (s : State) : State := s.bindAdapter (s.adapter.send v)

/-- The sender of an instance's input channel exits, at any time (R222). -/
def State.hostExits (s : State) : State := s.bindAdapter s.adapter.close

/-- One turn of a pipeline worker (R220), the host's loop around one instance. -/
inductive WorkerTurn where
  /-- The instance produced a value: send it on the outbound channel and take another turn. -/
  | forward (v : Word) (s : State)
  /-- `is_running()` is false: the worker terminates and forwards nothing. -/
  | exit (s : State)
  /-- The instance faulted: the worker does not continue, and the host decides what the error means. -/
  | failed (kind : Fault) (s : State)
  /-- Blocked on the inbound channel inside the call; a value sent lets the call go on. -/
  | blocked (s : State)
  /-- The step budget ran out inside the call: take another turn. -/
  | unfinished (s : State)
  /-- The call was refused. -/
  | refused (q : Refusal)
  deriving DecidableEq, Repr

/-- The worker's turn (R220): call `run_to_next_output`, or go on with the call that is in progress. -/
def State.workerTurn (budget : Nat) (s : State) : WorkerTurn :=
  let stand :=
    if s.fault.isNone && s.run == .running then drive .runToNextOutput budget s else s.runToNextOutput budget
  match stand with
  | .returned (.value v) t => .forward v t
  | .returned .noOutputProduced t => .exit t
  | .returned (.ok _) t => .exit t
  | .returned (.error k) t => .failed k t
  | .waiting t => .blocked t
  | .outOfBudget t => .unfinished t
  | .refused q _ => .refused q

/-- A worker of a pipeline and its instance (R220). -/
structure Worker where
  vm : State
  exited : Bool
  deriving DecidableEq, Repr

/-- A pipeline: the orchestrator sends to worker 0, worker `i` sends to worker `i + 1`, and the last worker sends to the
orchestrator, which keeps what it received (R221). -/
structure Pipeline where
  workers : List Worker
  received : List Word
  deriving DecidableEq, Repr

/-- Replace worker `i`. -/
def Pipeline.put (p : Pipeline) (i : Nat) (w : Worker) : Pipeline := { p with workers := p.workers.set i w }

/-- Send a value on the edge into worker `i`, or to the orchestrator past the last worker (R221). Channels have no
capacity bound here (log entry 7). -/
def Pipeline.deliver (p : Pipeline) (i : Nat) (v : Word) : Pipeline :=
  match p.workers[i]? with
  | some w => p.put i { w with vm := w.vm.receiveFromHost v }
  | none => { p with received := p.received ++ [v] }

/-- The sender of the edge into worker `i` exits (R222). -/
def Pipeline.hangUp (p : Pipeline) (i : Nat) : Pipeline :=
  match p.workers[i]? with
  | some w => p.put i { w with vm := w.vm.hostExits }
  | none => p

/-- Worker `i` takes a turn (R220); the host chooses which worker moves next (R257). -/
def Pipeline.turn (budget i : Nat) (p : Pipeline) : Pipeline :=
  match p.workers[i]? with
  | none => p
  | some w =>
    if w.exited then p
    else
      match w.vm.workerTurn budget with
      | .forward v t => (p.put i { w with vm := t }).deliver (i + 1) v
      | .exit t => (p.put i { vm := t, exited := true }).hangUp (i + 1)
      | .failed _ t => (p.put i { vm := t, exited := true }).hangUp (i + 1)
      | .blocked t => p.put i { w with vm := t }
      | .unfinished t => p.put i { w with vm := t }
      | .refused _ => p

/-- The pipeline has finished when its last instance is `Halted` (R222). -/
def Pipeline.finished (p : Pipeline) : Bool :=
  match p.workers.getLast? with
  | some w => w.vm.run == .halted
  | none => false

end Sys2Proof.Machine
end

