-- ==== Sys2Proof/Safety.lean ====
section
/-! DEFINITION. What the claims are stated in: the invariant of an instance, the states a host can reach, and a safe
run. -/

namespace Sys2Proof.Machine

/-- The invariant of an instance. The memory is in canonical form; a recorded fault leaves `run = Running` (R120); a
`run_to_next_output` in progress is running, has no fault, and has not grown the log yet (R209: it pauses the first time
the log grows); an `Idle` instance has executed nothing (R203, R213); a `Paused` one has an output. -/
abbrev State.Inv (s : State) : Prop :=
  s.mem.wf = true ∧
  (s.fault ≠ none → s.run = .running) ∧
  (s.nextOutputFrom ≠ none →
    s.run = .running ∧ s.fault = none ∧ s.nextOutputFrom = some s.out.length) ∧
  (s.run = .idle → s.ip = 0 ∧ s.rb = 0#64 ∧ s.out = [] ∧ s.cursor = 0) ∧
  (s.run = .paused → s.out ≠ [])

/-- The states an instance can be in: after reset or a load, a host transaction, a host message to the input channel, or
a step (R200, R282). -/
inductive Reachable : State → Prop where
  | reset : Reachable State.reset
  | load {limit : Option Nat} {host : Nat} {text : String} {s : State} (h : load limit host text = some s) : Reachable s
  | patch {a : Nat} {v : Word} {s t : State} (hs : Reachable s) (h : s.patch a v = .next t) : Reachable t
  | bind {src : Adapter} {s t : State} (hs : Reachable s) (h : s.setInputAdapter src = .next t) : Reachable t
  | enter {e : EntryPoint} {s t : State} (hs : Reachable s) (h : s.enter e = .entered t) : Reachable t
  | send {v : Word} {s : State} (hs : Reachable s) : Reachable (s.receiveFromHost v)
  | close {s : State} (hs : Reachable s) : Reachable s.hostExits
  | step {s t : State} (hs : Reachable s) (h : step s = .next t) : Reachable t

/-- A step may be taken: an entry-point call is in progress (R111, R215). -/
abbrev State.InProgress (s : State) : Prop := s.run = .running ∧ s.fault = none

/-- A safe run of `n` steps: every one of them completes and none records a fault. -/
def State.SafeRun : (n : Nat) → State → Prop
  | 0, s => s.fault = none
  | n + 1, s => s.fault = none ∧ ∃ t, Machine.step s = .next t ∧ State.SafeRun n t

/-- The first fault that resolving parameters in order raises, if any (R117, R123). -/
def State.firstFault (s : State) : List Role → List Param → Option Fault
  | .read :: rs, p :: ps =>
    match s.readOperand p with
    | .error k => some k
    | .ok _ => State.firstFault s rs ps
  | .write :: rs, p :: ps =>
    match s.writeAddress p with
    | .error k => some k
    | .ok _ => State.firstFault s rs ps
  | _, _ => none

/-- Resolving the parameter `p` of role `r` is an `InvalidAddress` fault: a negative position or relative address, or an
immediate write target (R243). -/
abbrev State.InvalidParam (s : State) (p : Param) (r : Role) : Prop :=
  p.mode = .position ∧ p.raw.toInt < 0 ∨ p.mode = .relative ∧ s.rb.toInt + p.raw.toInt < 0 ∨
  p.mode = .immediate ∧ r = .write

/-- Resolving the parameter `p` is an `ArithmeticOverflow` fault: a relative address above `WORD_MAX` (R246). -/
abbrev State.OverflowingParam (s : State) (p : Param) : Prop :=
  p.mode = .relative ∧ wordMax < s.rb.toInt + p.raw.toInt

/-- The state after the instruction of `n` words at `ip` raised the fault `k` past its decode, with nothing else done: the
advanced `ip` (R116) and the record (R119, R120). -/
abbrev State.faultedAfter (n : Nat) (k : Fault) (s : State) : State :=
  { s with ip := s.ip + n, fault := some { kind := k, addr := s.ip } }

/-- Opcode `op` has format F3 and names the instructions `mk` (R82, R83): the words at an instruction decode to it when its
three mode digits are modes, and are malformed when one of them is not (R87). -/
abbrev DecodesF3 (op : Int) (mk : Param → Param → Param → Instr) : Prop :=
  ∀ w d1 d2 d3 : Word, opcodeField w = op →
    (∀ m1 m2 m3 : Mode, modeOfDigit (digit w 2) = some m1 → modeOfDigit (digit w 3) = some m2 →
      modeOfDigit (digit w 4) = some m3 → decode [w, d1, d2, d3] = .ok (mk ⟨m1, d1⟩ ⟨m2, d2⟩ ⟨m3, d3⟩)) ∧
    (modeOfDigit (digit w 2) = none ∨ modeOfDigit (digit w 3) = none ∨ modeOfDigit (digit w 4) = none →
      decode [w, d1, d2, d3] = .error .malformedParameter)

/-- Opcode `op` has format F2 and names the instructions `mk` (R82, R83, R87). -/
abbrev DecodesF2 (op : Int) (mk : Param → Param → Instr) : Prop :=
  ∀ w d1 d2 d3 : Word, opcodeField w = op →
    (∀ m1 m2 : Mode, modeOfDigit (digit w 2) = some m1 → modeOfDigit (digit w 3) = some m2 →
      decode [w, d1, d2, d3] = .ok (mk ⟨m1, d1⟩ ⟨m2, d2⟩)) ∧
    (modeOfDigit (digit w 2) = none ∨ modeOfDigit (digit w 3) = none →
      decode [w, d1, d2, d3] = .error .malformedParameter)

/-- Opcode `op` has format F1 and names the instructions `mk` (R82, R83, R87). -/
abbrev DecodesF1 (op : Int) (mk : Param → Instr) : Prop :=
  ∀ w d1 d2 d3 : Word, opcodeField w = op →
    (∀ m1 : Mode, modeOfDigit (digit w 2) = some m1 → decode [w, d1, d2, d3] = .ok (mk ⟨m1, d1⟩)) ∧
    (modeOfDigit (digit w 2) = none → decode [w, d1, d2, d3] = .error .malformedParameter)

/-- The instruction `mk` reads its first two parameters, and stores at the cell its third names the word whose value is
`val` of the two values: it completes when the parameters resolve, the value is a word and the memory limit allows the
cell; at or above the limit it records `MemoryExhausted`; the first parameter that does not resolve decides its fault. -/
abbrev StoresResult (mk : Param → Param → Param → Instr) (val : Int → Int → Int) : Prop :=
  ∀ (s : State) (p1 p2 p3 : Param),
    (∀ (v1 v2 r : Word) (t : Nat), s.readOperand p1 = .ok v1 → s.readOperand p2 = .ok v2 →
      s.writeAddress p3 = .ok t → r.toInt = val v1.toInt v2.toInt →
      (beyondLimit s.memLimit t = false →
        exec (mk p1 p2 p3) s = .next { s with ip := s.ip + 4, mem := s.mem.write t r }) ∧
      (beyondLimit s.memLimit t = true → exec (mk p1 p2 p3) s = .next (s.faultedAfter 4 .memoryExhausted))) ∧
    (∀ k : Fault, s.firstFault [.read, .read, .write] [p1, p2, p3] = some k →
      exec (mk p1 p2 p3) s = .next (s.faultedAfter 4 k))

/-- The instruction `mk` records `ArithmeticOverflow` and does nothing else when its parameters resolve and `val` of the
two values is no word (R142; the spec's decision D2). -/
abbrev OverflowsOutsideWord (mk : Param → Param → Param → Instr) (val : Int → Int → Int) : Prop :=
  ∀ (s : State) (p1 p2 p3 : Param) (v1 v2 : Word) (t : Nat), s.readOperand p1 = .ok v1 → s.readOperand p2 = .ok v2 →
    s.writeAddress p3 = .ok t → ¬ InWord (val v1.toInt v2.toInt) →
    exec (mk p1 p2 p3) s = .next (s.faultedAfter 4 .arithmeticOverflow)

/-- The instruction `mk` jumps to the value of its second parameter exactly when the value of its first meets `taken`; both
are resolved either way, and only a taken jump looks at the sign of the target (R160 to R162). -/
abbrev JumpsWhen (mk : Param → Param → Instr) (taken : Int → Prop) : Prop :=
  ∀ (s : State) (p1 p2 : Param),
    (∀ v1 v2 : Word, s.readOperand p1 = .ok v1 → s.readOperand p2 = .ok v2 →
      (¬ taken v1.toInt → exec (mk p1 p2) s = .next { s with ip := s.ip + 3 }) ∧
      (taken v1.toInt → 0 ≤ v2.toInt → exec (mk p1 p2) s = .next { s with ip := v2.toInt.toNat }) ∧
      (taken v1.toInt → v2.toInt < 0 → exec (mk p1 p2) s = .next (s.faultedAfter 3 .invalidAddress))) ∧
    (∀ k : Fault, s.firstFault [.read, .read] [p1, p2] = some k → exec (mk p1 p2) s = .next (s.faultedAfter 3 k))

/-- What an instruction may change in the control state of the instance, whatever it does: the adapter, the memory limit
and the controller's mark never, and the fault record only to a fault of this instruction (R119, R120). -/
abbrev State.ControlKept (s t : State) : Prop :=
  t.adapter = s.adapter ∧ t.memLimit = s.memLimit ∧ t.nextOutputFrom = s.nextOutputFrom ∧
  (t.fault = s.fault ∨ ∃ k, t.fault = some { kind := k, addr := s.ip })

end Sys2Proof.Machine
end

