-- ==== Sys2Proof/WellFormed.lean ====
section
/-! DEFINITION. Well-formed instructions. Every term of `Instr` has an encoding and decodes (spec/30_encoding.md R88:
an immediate write target "is not a decode error"), so the one check is the one the engine makes at resolution: a write
parameter names a cell, that is, its mode is not immediate (spec/20_memory.md R56). An ill-formed instruction still runs:
it takes the `InvalidAddress` fault. No statement about decoding or stepping assumes well-formedness. -/

namespace Sys2Proof

/-- A parameter fits its role: an immediate-mode parameter is no write target (R56). -/
def Param.fits (r : Role) (p : Param) : Bool :=
  match r, p.mode with
  | .write, .immediate => false
  | _, _ => true

/-- Every parameter of the instruction fits its role (R56, R84, R88). -/
def Instr.wf (i : Instr) : Bool := (List.zipWith Param.fits i.roles i.params).all id

end Sys2Proof
end

