-- ==== Sys2Proof/Certificates/Slice0/Obligations.lean ====
section
/-! DEFINITION. The statements for the provers. Each docstring names the rule of spec/ it formalises. -/

open Sys2Proof Sys2Proof.Machine

/-! ## Memory -/

/-- R51: `MemRead(a)` is `M[a]` if `a < len(M)` and 0 otherwise, where a memory in canonical form is the list of its first
`len` cells. -/
def Obligations.MemReadIsTheCellOrZero : Prop :=
  (∀ (ws : List Word) (a : Nat), (Memory.ofList ws).read a = if h : a < ws.length then ws[a] else 0#64) ∧
  (∀ m : Memory, m.wf = true → Memory.ofList ((List.range m.len).map m.read) = m) ∧
  (∀ (m : Memory) (a : Nat), m.wf = true → m.len ≤ a → m.read a = 0#64)

/-- R52: `MemWrite` grows memory with zero cells, stores, and changes nothing else; at or above the limit it raises
`MemoryExhausted` before any change. -/
def Obligations.MemWriteGrowsThenStores : Prop :=
  ∀ (s : State) (a : Nat) (v : Word),
    ((∀ bound, s.memLimit = some bound → a < bound) →
      ∃ m : Memory, s.memWrite a v = .ok { s with mem := m } ∧ m.len = max s.mem.len (a + 1) ∧ m.read a = v ∧
        (∀ b, b ≠ a → m.read b = s.mem.read b) ∧
        (s.mem.wf = true → m.wf = true ∧ ∀ b, s.mem.len ≤ b → b < a → m.read b = 0#64)) ∧
    (∀ bound, s.memLimit = some bound → bound ≤ a → s.memWrite a v = .error .memoryExhausted)

/-- R53, which the spec derives from R51 and R52: with no limit every write at or past the end succeeds, and the gap reads
0 immediately before it. -/
def Obligations.WritePastTheEndNeverFails : Prop :=
  ∀ (s : State) (k : Nat) (v : Word), s.mem.wf = true → s.memLimit = none →
    (∃ t, s.memWrite (s.mem.len + k) v = .ok t ∧ t.mem.read (s.mem.len + k) = v) ∧
    ∀ b, s.mem.len ≤ b → b < s.mem.len + k → s.mem.read b = 0#64

/-! ## Operands -/

/-- R55, with R57 for the relative address: the value of a read parameter by its mode. -/
def Obligations.ReadOperandByMode : Prop :=
  ∀ (s : State) (d : Word),
    (0 ≤ d.toInt → s.readOperand ⟨.position, d⟩ = .ok (s.mem.read d.toInt.toNat)) ∧
    (d.toInt < 0 → s.readOperand ⟨.position, d⟩ = .error .invalidAddress) ∧
    s.readOperand ⟨.immediate, d⟩ = .ok d ∧
    (0 ≤ s.rb.toInt + d.toInt → s.rb.toInt + d.toInt ≤ wordMax →
      s.readOperand ⟨.relative, d⟩ = .ok (s.mem.read (s.rb.toInt + d.toInt).toNat)) ∧
    (s.rb.toInt + d.toInt < 0 → s.readOperand ⟨.relative, d⟩ = .error .invalidAddress) ∧
    (wordMax < s.rb.toInt + d.toInt → s.readOperand ⟨.relative, d⟩ = .error .arithmeticOverflow)

/-- R56, with R57 for the relative address: the cell a write parameter names, by its mode. -/
def Obligations.WriteAddressByMode : Prop :=
  ∀ (s : State) (d : Word),
    (0 ≤ d.toInt → s.writeAddress ⟨.position, d⟩ = .ok d.toInt.toNat) ∧
    (d.toInt < 0 → s.writeAddress ⟨.position, d⟩ = .error .invalidAddress) ∧
    s.writeAddress ⟨.immediate, d⟩ = .error .invalidAddress ∧
    (0 ≤ s.rb.toInt + d.toInt → s.rb.toInt + d.toInt ≤ wordMax →
      s.writeAddress ⟨.relative, d⟩ = .ok (s.rb.toInt + d.toInt).toNat) ∧
    (s.rb.toInt + d.toInt < 0 → s.writeAddress ⟨.relative, d⟩ = .error .invalidAddress) ∧
    (wordMax < s.rb.toInt + d.toInt → s.writeAddress ⟨.relative, d⟩ = .error .arithmeticOverflow)

/-- R219, which the spec derives from R55, for one instruction: an instruction does the same whether a read operand is
the literal `x` or names, in position mode, a cell that holds `x`. -/
def Obligations.LiteralEqualsCellThatHoldsIt : Prop :=
  ∀ (s : State) (x c : Word) (p q : Param), 0 ≤ c.toInt → s.mem.read c.toInt.toNat = x →
    let lit : Param := ⟨.immediate, x⟩
    let cell : Param := ⟨.position, c⟩
    (∀ mk ∈ [Instr.add, Instr.mul, Instr.lt, Instr.eq],
      exec (mk lit p q) s = exec (mk cell p q) s ∧ exec (mk p lit q) s = exec (mk p cell q) s) ∧
    (∀ mk ∈ [Instr.jt, Instr.jf],
      exec (mk lit p) s = exec (mk cell p) s ∧ exec (mk p lit) s = exec (mk p cell) s) ∧
    (∀ mk ∈ [Instr.output, Instr.arb], exec (mk lit) s = exec (mk cell) s)

/-! ## Encoding -/

/-- R80, R93: decoding the encoding of any instruction, whatever words follow it, gives the instruction back. -/
def Obligations.DecodeOfEncode : Prop :=
  ∀ (i : Instr) (rest : List Word), decode (encode i ++ rest) = .ok i

/-- R86, R93: the words that decode to an instruction are exactly its raw words after a value that differs from the
canonical instruction word only in the digits above its last mode digit. -/
def Obligations.WordsOfAnInstruction : Prop :=
  ∀ (w d1 d2 d3 : Word) (i : Instr),
    decode [w, d1, d2, d3] = .ok i ↔
      (∃ k : Nat, w.toInt = canonicalValue i + 10 ^ (i.arity + 2) * (k : Int)) ∧
      i.params.map Param.raw = [d1, d2, d3].take i.arity

/-- R86: digits above the last mode digit are ignored: two instruction words with the same supported opcode and the same
mode digits of the parameters within its arity decode alike; so do the rule's own examples. -/
def Obligations.DigitsBeyondTheArityAreIgnored : Prop :=
  (∀ (w w' d1 d2 d3 : Word) (n : Nat), opcodeField w = opcodeField w' → arityOf (opcodeField w) = some n →
    (∀ j, 1 ≤ j → j ≤ n → digit w (j + 1) = digit w' (j + 1)) → decode [w, d1, d2, d3] = decode [w', d1, d2, d3]) ∧
  (∀ w ∈ ([199#64, 1099#64, 399#64] : List Word), ∀ ds : List Word, decode (w :: ds) = .ok .halt) ∧
  (∀ (d : Word) (ds : List Word), decode (11104#64 :: d :: ds) = .ok (.output ⟨.immediate, d⟩))

/-- R89, R90: a word is an unknown opcode exactly when its two low digits are none of the ten opcodes, and so is every
word that is not positive, and every fetch past the end of memory. -/
def Obligations.UnsupportedOpcodeIsUnknown : Prop :=
  (∀ ws : List Word, decode ws = .error .unknownOpcode ↔
    opcodeField (rawWord ws 0) ∉ ([1, 2, 3, 4, 5, 6, 7, 8, 9, 99] : List Int)) ∧
  (∀ ws : List Word, (rawWord ws 0).toInt ≤ 0 → decode ws = .error .unknownOpcode) ∧
  (∀ s : State, s.mem.wf = true → s.mem.len ≤ s.ip → decode s.fetchWords = .error .unknownOpcode)

/-- R87: a supported opcode is malformed exactly when a mode digit of a parameter within its arity is not 0, 1 or 2; the
step then faults with `ip` not advanced. -/
def Obligations.BadModeDigitIsMalformed : Prop :=
  (∀ ws : List Word, decode ws = .error .malformedParameter ↔
    ∃ n, arityOf (opcodeField (rawWord ws 0)) = some n ∧
      ∃ j, 1 ≤ j ∧ j ≤ n ∧ digit (rawWord ws 0) (j + 1) ∉ ([0, 1, 2] : List Int)) ∧
  (∀ s : State, s.InProgress → decode s.fetchWords = .error .malformedParameter →
    ∃ t, step s = .next t ∧ t.fault = some ⟨.malformedParameter, s.ip⟩ ∧ t.ip = s.ip)

/-- R81 to R83, R86: instruction words of the spec's own examples decode to the instructions they stand for. -/
def Obligations.SampleWordsDecode : Prop :=
  decode [1002#64, 4#64, 3#64, 4#64] = .ok (.mul ⟨.position, 4#64⟩ ⟨.immediate, 3#64⟩ ⟨.position, 4#64⟩) ∧
  decode [1201#64, 3#64, 7#64, 12#64] = .ok (.add ⟨.relative, 3#64⟩ ⟨.immediate, 7#64⟩ ⟨.position, 12#64⟩) ∧
  decode [3#64, 9#64] = .ok (.input ⟨.position, 9#64⟩) ∧
  decode [11104#64, 0#64] = .ok (.output ⟨.immediate, 0#64⟩) ∧
  decode [1005#64, 10#64, 0#64] = .ok (.jt ⟨.position, 10#64⟩ ⟨.immediate, 0#64⟩) ∧
  decode [1106#64, 0#64, 4#64] = .ok (.jf ⟨.immediate, 0#64⟩ ⟨.immediate, 4#64⟩) ∧
  decode [7#64, 5#64, 6#64, 7#64] = .ok (.lt ⟨.position, 5#64⟩ ⟨.position, 6#64⟩ ⟨.position, 7#64⟩) ∧
  decode [1108#64, -1#64, -1#64, 5#64] = .ok (.eq ⟨.immediate, -1#64⟩ ⟨.immediate, -1#64⟩ ⟨.position, 5#64⟩) ∧
  decode [209#64, -3#64] = .ok (.arb ⟨.relative, -3#64⟩) ∧
  decode [12399#64] = .ok .halt

/-- R88: an immediate write target decodes, and the instruction records `InvalidAddress` after its advance if the
parameters before it resolve. -/
def Obligations.ImmediateTargetFaultsAtResolution : Prop :=
  ∀ (s : State) (p1 p2 : Param) (d : Word) (rest : List Word),
    (∀ mk ∈ [Instr.add, Instr.mul, Instr.lt, Instr.eq], (mk p1 p2 ⟨.immediate, d⟩).wf = false ∧
      decode (encode (mk p1 p2 ⟨.immediate, d⟩) ++ rest) = .ok (mk p1 p2 ⟨.immediate, d⟩) ∧
      ∀ v1 v2, s.readOperand p1 = .ok v1 → s.readOperand p2 = .ok v2 →
        exec (mk p1 p2 ⟨.immediate, d⟩) s = .next (s.faultedAfter 4 .invalidAddress)) ∧
    (Instr.input ⟨.immediate, d⟩).wf = false ∧
    decode (encode (.input ⟨.immediate, d⟩) ++ rest) = .ok (.input ⟨.immediate, d⟩) ∧
    exec (.input ⟨.immediate, d⟩) s = .next (s.faultedAfter 2 .invalidAddress)

/-! ## The step -/

/-- R111, R112, R122: while an entry point is in progress, a step runs the instruction that the words at `ip` decode to,
and then the controller's check; what `exec` stops on, the step stops on. That the check (R208 to R210) is part of the same
transition is the model's reading of R126 (log entry 12). -/
def Obligations.StepRunsTheDecodedInstruction : Prop :=
  ∀ (s : State) (i : Instr), s.InProgress →
    decode [s.mem.read s.ip, s.mem.read (s.ip + 1), s.mem.read (s.ip + 2), s.mem.read (s.ip + 3)] = .ok i →
    (∀ t, exec i s = .next t → step s = .next t.afterStep) ∧
    (∀ k, exec i s = .fault k → step s = .fault k) ∧
    (∀ q, exec i s = .refused q → step s = .refused q)

/-- R67, R112, R115: a step runs the instruction whose encoding stands in memory at `ip`, whoever wrote it there. That the
controller's check (R208 to R210) follows in the same transition is the model's reading of R126 (log entry 12). -/
def Obligations.StepRunsTheEncodingInMemory : Prop :=
  ∀ (s : State) (i : Instr), s.InProgress →
    (∀ j < (encode i).length, s.mem.read (s.ip + j) = (encode i).getD j 0#64) →
    ∀ t, exec i s = .next t → step s = .next t.afterStep

/-- R208, R209, R210: the controller's check after a step. A fault or a halt ends the call; in `run_to_next_output` a log
that has grown pauses the instance; nothing else changes. The mark it clears is the model's own field (log entry 4). -/
def Obligations.ControllerCheckAfterAStep : Prop :=
  ∀ t : State,
    (t.fault ≠ none → t.afterStep = { t with nextOutputFrom := none }) ∧
    (t.fault = none → t.run = .halted → t.afterStep = { t with nextOutputFrom := none }) ∧
    (t.fault = none → t.run = .running → t.nextOutputFrom = none → t.afterStep = t) ∧
    (∀ n0, t.fault = none → t.run = .running → t.nextOutputFrom = some n0 →
      (n0 < t.out.length → t.afterStep = { t with run := .paused, nextOutputFrom := none }) ∧
      (t.out.length ≤ n0 → t.afterStep = t))

/-- R112, R113, R114: a decode fault is recorded at the address fetched, with every other field of the instance
unchanged; the fetch beyond the end of memory reads 0 and so faults. The mark that is cleared, `nextOutputFrom`, is the model's own field
(log entry 4). -/
def Obligations.DecodeFaultChangesOnlyTheRecord : Prop :=
  ∀ s : State, s.InProgress →
    (opcodeField (s.mem.read s.ip) ∉ ([1, 2, 3, 4, 5, 6, 7, 8, 9, 99] : List Int) →
      step s = .next { s with fault := some ⟨.unknownOpcode, s.ip⟩, nextOutputFrom := none }) ∧
    (s.mem.wf = true → s.mem.len ≤ s.ip →
      step s = .next { s with fault := some ⟨.unknownOpcode, s.ip⟩, nextOutputFrom := none }) ∧
    (∀ n j, arityOf (opcodeField (s.mem.read s.ip)) = some n → 1 ≤ j → j ≤ n →
      digit (s.mem.read s.ip) (j + 1) ∉ ([0, 1, 2] : List Int) →
      step s = .next { s with fault := some ⟨.malformedParameter, s.ip⟩, nextOutputFrom := none })

/-- R111: there is no step outside an entry-point call in progress. Which of the machine's two ways of not stepping
answers is the model's choice (log entry 1). -/
def Obligations.NoStepOutsideACall : Prop :=
  (∀ s t : State, step s = .next t → s.run = .running ∧ s.fault = none) ∧
  (∀ (s : State) (r : FaultRecord), s.fault = some r → step s = .fault r.kind) ∧
  (∀ s : State, s.fault = none →
    (s.run = .idle → step s = .refused .notStarted) ∧
    (s.run = .paused → step s = .refused .paused) ∧
    (s.run = .halted → step s = .refused .halted))

/-- R120, R253: a step that records a fault records its own address, leaves `run` alone, and has written no memory, no
relative base and no output; a decode fault leaves `ip`, any other fault leaves it past the instruction, and only IN can
have moved the cursor. -/
def Obligations.FaultLeavesWhatWasDone : Prop :=
  ∀ (s t : State) (r : FaultRecord), step s = .next t → t.fault = some r →
    r.addr = s.ip ∧ t.run = .running ∧ t.mem = s.mem ∧ t.rb = s.rb ∧ t.out = s.out ∧ t.adapter = s.adapter ∧
    ((r.kind = .unknownOpcode ∨ r.kind = .malformedParameter) → t.ip = s.ip ∧ t.cursor = s.cursor) ∧
    (r.kind ≠ .unknownOpcode → r.kind ≠ .malformedParameter →
      ∃ i, decode s.fetchWords = .ok i ∧ t.ip = s.ip + i.length ∧
        (t.cursor = s.cursor ∨ t.cursor = s.cursor + 1 ∧ ∃ p1, i = .input p1))

/-- R243, R244, R246, R247: what each fault an instruction records is caused by, and what the record says. A fault is
recorded in a next state of `exec`, the model's form of it (log entry 1). -/
def Obligations.FaultKindsByInstruction : Prop :=
  ∀ (s t : State) (i : Instr), s.fault = none → exec i s = .next t →
    (∀ k a, t.fault = some ⟨k, a⟩ →
      a = s.ip ∧ t.ip = s.ip + i.length ∧ t.mem = s.mem ∧ t.rb = s.rb ∧ t.out = s.out ∧ t.run = s.run) ∧
    (∀ a, t.fault = some ⟨.invalidAddress, a⟩ →
      (∃ p r, (p, r) ∈ i.params.zip i.roles ∧ s.InvalidParam p r) ∨
      ∃ p1 p2 v1 v2, (i = .jt p1 p2 ∧ v1.toInt ≠ 0 ∨ i = .jf p1 p2 ∧ v1.toInt = 0) ∧
        s.readOperand p1 = .ok v1 ∧ s.readOperand p2 = .ok v2 ∧ v2.toInt < 0) ∧
    (∀ a, t.fault = some ⟨.arithmeticOverflow, a⟩ →
      (∃ p ∈ i.params, s.OverflowingParam p) ∨
      (∃ p1 p2 p3 v1 v2, s.readOperand p1 = .ok v1 ∧ s.readOperand p2 = .ok v2 ∧
        (i = .add p1 p2 p3 ∧ ¬ InWord (v1.toInt + v2.toInt) ∨ i = .mul p1 p2 p3 ∧ ¬ InWord (v1.toInt * v2.toInt))) ∨
      ∃ p1 v1, i = .arb p1 ∧ s.readOperand p1 = .ok v1 ∧ ¬ InWord (s.rb.toInt + v1.toInt)) ∧
    (∀ a, t.fault = some ⟨.inputUnavailable, a⟩ →
      (∃ p1, i = .input p1) ∧ s.adapter.request s.cursor = .unavailable ∧ t.cursor = s.cursor + 1) ∧
    (∀ a, t.fault = some ⟨.memoryExhausted, a⟩ →
      ∃ p bound target, (p, Role.write) ∈ i.params.zip i.roles ∧ s.memLimit = some bound ∧
        s.writeAddress p = .ok target ∧ bound ≤ target) ∧
    (∀ a, t.fault ≠ some ⟨.unknownOpcode, a⟩ ∧ t.fault ≠ some ⟨.malformedParameter, a⟩) ∧
    (i = .halt → t.fault = none)

/-! ## The instructions -/

/-- R140, R142, R143: ADD. -/
def Obligations.AddFollowsItsRule : Prop :=
  DecodesF3 1 .add ∧ StoresResult .add (fun v1 v2 => v1 + v2) ∧ OverflowsOutsideWord .add (fun v1 v2 => v1 + v2)

/-- R141, R142, R143: MUL. -/
def Obligations.MulFollowsItsRule : Prop :=
  DecodesF3 2 .mul ∧ StoresResult .mul (fun v1 v2 => v1 * v2) ∧ OverflowsOutsideWord .mul (fun v1 v2 => v1 * v2)

/-- R170, R172: LT. -/
def Obligations.LtFollowsItsRule : Prop :=
  DecodesF3 7 .lt ∧ StoresResult .lt (fun v1 v2 => if v1 < v2 then 1 else 0)

/-- R171, R172: EQ. -/
def Obligations.EqFollowsItsRule : Prop :=
  DecodesF3 8 .eq ∧ StoresResult .eq (fun v1 v2 => if v1 = v2 then 1 else 0)

/-- R150: IN. The target is resolved first; the request counts whatever its answer; an unanswered request enables no
step (R125), and that `exec` then answers the refusal `awaitingInput` is the model's form of stuck (log entry 1). -/
def Obligations.InputFollowsItsRule : Prop :=
  DecodesF1 3 .input ∧
  ∀ (s : State) (p1 : Param),
    (∀ k, s.writeAddress p1 = .error k → exec (.input p1) s = .next (s.faultedAfter 2 k)) ∧
    (∀ t, s.writeAddress p1 = .ok t →
      (∀ v, s.adapter.request s.cursor = .value v → beyondLimit s.memLimit t = false →
        exec (.input p1) s =
          .next { s with ip := s.ip + 2, cursor := s.cursor + 1, mem := s.mem.write t v }) ∧
      (∀ v, s.adapter.request s.cursor = .value v → beyondLimit s.memLimit t = true →
        exec (.input p1) s = .next { s.faultedAfter 2 .memoryExhausted with cursor := s.cursor + 1 }) ∧
      (s.adapter.request s.cursor = .unavailable →
        exec (.input p1) s = .next { s.faultedAfter 2 .inputUnavailable with cursor := s.cursor + 1 }) ∧
      (s.adapter.request s.cursor = .noAnswer → exec (.input p1) s = .refused .awaitingInput))

/-- R151: OUT. In `run_to_next_output` the instance pauses after it, with the value appended and `ip` past it (R209). That a
call in progress is told by the mark `nextOutputFrom`, cleared when the call ends, is the model's (log entry 4), and so is
that the pause is part of the same transition (log entry 12). -/
def Obligations.OutputFollowsItsRule : Prop :=
  DecodesF1 4 .output ∧
  ∀ (s : State) (p1 : Param),
    (∀ v, s.readOperand p1 = .ok v →
      exec (.output p1) s = .next { s with ip := s.ip + 2, out := s.out ++ [v] } ∧
      (s.InProgress → decode s.fetchWords = .ok (.output p1) → s.nextOutputFrom = some s.out.length →
        step s =
          .next { s with ip := s.ip + 2, out := s.out ++ [v], run := .paused, nextOutputFrom := none })) ∧
    (∀ k, s.readOperand p1 = .error k → exec (.output p1) s = .next (s.faultedAfter 2 k))

/-- R160, R162: JT. -/
def Obligations.JtFollowsItsRule : Prop :=
  DecodesF2 5 .jt ∧ JumpsWhen .jt (fun v => v ≠ 0)

/-- R161, R162: JF. -/
def Obligations.JfFollowsItsRule : Prop :=
  DecodesF2 6 .jf ∧ JumpsWhen .jf (fun v => v = 0)

/-- R180, R181: ARB. -/
def Obligations.ArbFollowsItsRule : Prop :=
  DecodesF1 9 .arb ∧
  ∀ (s : State) (p1 : Param),
    (∀ v r : Word, s.readOperand p1 = .ok v → r.toInt = s.rb.toInt + v.toInt →
      exec (.arb p1) s = .next { s with ip := s.ip + 2, rb := r }) ∧
    (∀ v : Word, s.readOperand p1 = .ok v → ¬ InWord (s.rb.toInt + v.toInt) →
      exec (.arb p1) s = .next (s.faultedAfter 2 .arithmeticOverflow)) ∧
    (∀ k, s.readOperand p1 = .error k → exec (.arb p1) s = .next (s.faultedAfter 2 k))

/-- R190: HALT. Every word that ends in 99 decodes to it, whatever its other digits, and it never faults. That `run` is
written by the instruction's own meaning, where R190 gives the write to the calling entry point and R27 to the halting step,
is the model's (log entry 12); the mark that the step clears is the model's own field (log entry 4). -/
def Obligations.HaltFollowsItsRule : Prop :=
  (∀ ws : List Word, opcodeField (rawWord ws 0) = 99 → decode ws = .ok .halt) ∧
  (∀ s : State, exec .halt s = .next { s with ip := s.ip + 1, run := .halted }) ∧
  (∀ s : State, s.InProgress → opcodeField (s.mem.read s.ip) = 99 →
    step s = .next { s with ip := s.ip + 1, run := .halted, nextOutputFrom := none })

/-- R116: every instruction advances `ip` past its words, whether it completes or faults, but for a jump that is taken, which
assigns its target. -/
def Obligations.DefaultAdvance : Prop :=
  ∀ (i : Instr) (s t : State), exec i s = .next t →
    t.ip = s.ip + i.length ∨
    ∃ p1 p2 v1 v2, (i = .jt p1 p2 ∧ v1.toInt ≠ 0 ∨ i = .jf p1 p2 ∧ v1.toInt = 0) ∧ s.readOperand p1 = .ok v1 ∧
      s.readOperand p2 = .ok v2 ∧ 0 ≤ v2.toInt ∧ t.ip = v2.toInt.toNat

/-! ## Frames -/

/-- What ADD, MUL, LT and EQ leave unchanged: everything but `ip`, the fault record and the cell that the third parameter
names; where it names none, all of memory. -/
def Obligations.StoringInstructionsFrame : Prop :=
  ∀ mk ∈ [Instr.add, Instr.mul, Instr.lt, Instr.eq], ∀ (s t : State) (p1 p2 p3 : Param),
    exec (mk p1 p2 p3) s = .next t →
    s.ControlKept t ∧ t.rb = s.rb ∧ t.run = s.run ∧ t.out = s.out ∧ t.cursor = s.cursor ∧
    (∀ a, s.writeAddress p3 = .ok a → ∀ b, b ≠ a → t.mem.read b = s.mem.read b) ∧
    (∀ k, s.writeAddress p3 = .error k → t.mem = s.mem)

/-- What IN leaves unchanged: everything but `ip`, the fault record, the cursor and the cell that its parameter names. -/
def Obligations.InputFrame : Prop :=
  ∀ (s t : State) (p1 : Param), exec (.input p1) s = .next t →
    s.ControlKept t ∧ t.rb = s.rb ∧ t.run = s.run ∧ t.out = s.out ∧
    (∀ a, s.writeAddress p1 = .ok a →
      t.cursor = s.cursor + 1 ∧ ∀ b, b ≠ a → t.mem.read b = s.mem.read b) ∧
    (∀ k, s.writeAddress p1 = .error k → t.cursor = s.cursor ∧ t.mem = s.mem)

/-- What OUT, JT, JF, ARB and HALT leave unchanged: all of memory, the cursor, and every field but their own effect, `ip`
and the fault record. -/
def Obligations.NonStoringInstructionsFrame : Prop :=
  ∀ (s t : State) (p1 p2 : Param),
    (exec (.output p1) s = .next t → s.ControlKept t ∧ t.mem = s.mem ∧ t.cursor = s.cursor ∧ t.rb = s.rb ∧
      t.run = s.run ∧ (t.out = s.out ∨ ∃ v, s.readOperand p1 = .ok v ∧ t.out = s.out ++ [v])) ∧
    (∀ mk ∈ [Instr.jt, Instr.jf], exec (mk p1 p2) s = .next t → s.ControlKept t ∧ t.mem = s.mem ∧
      t.cursor = s.cursor ∧ t.rb = s.rb ∧ t.run = s.run ∧ t.out = s.out) ∧
    (exec (.arb p1) s = .next t → s.ControlKept t ∧ t.mem = s.mem ∧ t.cursor = s.cursor ∧ t.run = s.run ∧
      t.out = s.out) ∧
    (exec .halt s = .next t → s.ControlKept t ∧ t.mem = s.mem ∧ t.cursor = s.cursor ∧ t.rb = s.rb ∧
      t.out = s.out ∧ t.fault = s.fault)

/-- R36, the writers of each field, for a step: the relative base changes only by ARB, the Output Log only by OUT,
appending one value, the cursor only by IN, counting one, memory only by an instruction with a write parameter, and
`Halted` comes only from HALT. -/
def Obligations.StepWritesOnlyItsFields : Prop :=
  ∀ s t : State, step s = .next t →
    t.adapter = s.adapter ∧ t.memLimit = s.memLimit ∧
    (t.rb ≠ s.rb → ∃ p1, decode s.fetchWords = .ok (.arb p1)) ∧
    (t.out ≠ s.out → ∃ p1 v, decode s.fetchWords = .ok (.output p1) ∧ t.out = s.out ++ [v]) ∧
    (t.cursor ≠ s.cursor → ∃ p1, decode s.fetchWords = .ok (.input p1) ∧ t.cursor = s.cursor + 1) ∧
    (t.mem ≠ s.mem → ∃ i, decode s.fetchWords = .ok i ∧ .write ∈ i.roles) ∧
    (t.run = .halted → decode s.fetchWords = .ok .halt)

/-- R22, R29, R30: a step never shrinks the memory, never removes an output and never moves the cursor back. -/
def Obligations.StepOnlyExtendsHistory : Prop :=
  ∀ s t : State, step s = .next t →
    s.mem.len ≤ t.mem.len ∧ s.out <+: t.out ∧ t.out.length ≤ s.out.length + 1 ∧
    s.cursor ≤ t.cursor ∧ t.cursor ≤ s.cursor + 1

/-- R124, which the spec derives from R122: the step depends on the adapter only through its answer to the current
ordinal. -/
def Obligations.StepDependsOnTheAnswerAlone : Prop :=
  ∀ (s : State) (src : Adapter), src.request s.cursor = s.adapter.request s.cursor →
    (∀ t, step s = .next t → step (s.bindAdapter src) = .next (t.bindAdapter src)) ∧
    (∀ k, step s = .fault k → step (s.bindAdapter src) = .fault k) ∧
    (∀ q, step s = .refused q → step (s.bindAdapter src) = .refused q)

/-- R125: an IN whose request is not answered takes no step (the refusal is the model's form of stuck, log entry 1), and the host's next message on the open channel lets it
complete with that value. -/
def Obligations.AnswerLiftsAStuckInput : Prop :=
  ∀ (s : State) (p1 : Param) (a : Nat) (v : Word), s.InProgress → decode s.fetchWords = .ok (.input p1) →
    s.writeAddress p1 = .ok a → beyondLimit s.memLimit a = false → s.adapter.after = .noAnswer →
    s.adapter.answers.length = s.cursor →
    step s = .refused .awaitingInput ∧
    ∃ t, step (s.receiveFromHost v) = .next t ∧ t.mem = s.mem.write a v ∧ t.cursor = s.cursor + 1 ∧
      t.ip = s.ip + 2 ∧ t.fault = none

/-! ## Reset, load and the boundary interfaces -/

/-- R203: the instance that a successful `load` creates. The limit (log entry 3) and the number of the host behind the default
adapter (log entry 5) are arguments of the model's `load`. -/
def Obligations.LoadedInstanceIsInItsResetState : Prop :=
  ∀ (limit : Option Nat) (host : Nat) (text : String) (s : State), load limit host text = some s →
    ∃ ws : List Word, (tokensOf text).map tokenWord = ws.map some ∧ 1 ≤ ws.length ∧
      (∀ a, s.mem.read a = ws.getD a 0#64) ∧ s.mem.len = ws.length ∧ s.mem.wf = true ∧ s.ip = 0 ∧ s.rb.toInt = 0 ∧
      s.run = .idle ∧ s.out = [] ∧ s.cursor = 0 ∧ s.fault = none ∧ s.adapter = Adapter.unset host ∧ s.memLimit = limit

/-- The reset state of the model, before a program is placed: R280 gives `ip`, `rb`, `run`, `out`, `cursor`, `fault`, and
that the adapter is the default one. That memory lists nothing and has length 0 there (log entry 2), that there is no limit
(log entry 3), that no call is marked (log entry 4), and that the default adapter is the host of number 0 (log entry 5) are
the model's choices. -/
def Obligations.ResetStateFields : Prop :=
  State.reset.ip = 0 ∧ State.reset.rb.toInt = 0 ∧ State.reset.run = .idle ∧ State.reset.out = [] ∧
  State.reset.cursor = 0 ∧ State.reset.fault = none ∧ State.reset.adapter = Adapter.unset 0 ∧
  State.reset.memLimit = none ∧ State.reset.nextOutputFrom = none ∧ State.reset.mem.cells = [] ∧
  State.reset.mem.len = 0 ∧ ∀ a, State.reset.mem.read a = 0#64

/-- R201: the pieces of a text are what stands between its commas; a token is a piece less its leading and trailing
whitespace, if anything is left; and it is valid exactly when it is an optional minus and at least one digit, and denotes a
word. -/
def Obligations.TextIsReadAsTokens : Prop :=
  (∀ cs : List Char, List.intercalate [','] (splitAtCommas cs) = cs ∧ ∀ p ∈ splitAtCommas cs, ',' ∉ p) ∧
  (∀ p : List Char, ∃ l r : List Char, p = l ++ trimPiece p ++ r ∧
    (∀ c ∈ l ++ r, c ∈ [' ', '\t', '\r', '\n']) ∧
    (∀ c, (trimPiece p).head? = some c ∨ (trimPiece p).getLast? = some c → c ∉ [' ', '\t', '\r', '\n'])) ∧
  (∀ text : String, tokensOf text = ((splitAtCommas text.toList).map trimPiece).filter (fun p => p ≠ [])) ∧
  (∀ (p : List Char) (w : Word), tokenWord p = some w ↔
    ∃ ds : List Char, ds ≠ [] ∧ (∀ c ∈ ds, '0' ≤ c ∧ c ≤ '9') ∧
      let n : Nat := ds.foldl (fun acc c => acc * 10 + (c.toNat - '0'.toNat)) 0
      (p = ds ∧ w.toInt = n) ∨ (p = '-' :: ds ∧ w.toInt = -(n : Int)))

/-- R202: `load` fails exactly when a token is invalid or there are none, and otherwise creates the instance of its tokens'
words. -/
def Obligations.LoadCreatesOrFails : Prop :=
  ∀ (limit : Option Nat) (host : Nat) (text : String),
    (load limit host text = none ↔ (∃ p ∈ tokensOf text, tokenWord p = none) ∨ tokensOf text = []) ∧
    (∀ ws : List Word, ws ≠ [] → (tokensOf text).map tokenWord = ws.map some →
      load limit host text = some (State.loaded limit host ws))

/-- R204: a patch in `Idle` is one memory write and nothing else, so a later `peek` sees it; outside `Idle`, and at
or above the limit, it is refused. -/
def Obligations.PatchThenPeek : Prop :=
  ∀ (s : State) (a : Nat) (v : Word),
    (s.run = .idle → beyondLimit s.memLimit a = false →
      s.patch a v = .next { s with mem := s.mem.write a v } ∧
      ({ s with mem := s.mem.write a v } : State).peek a = v ∧
      ∀ b, b ≠ a → ({ s with mem := s.mem.write a v } : State).peek b = s.peek b) ∧
    (s.run = .idle → beyondLimit s.memLimit a = true → s.patch a v = .refused .patchBeyondLimit) ∧
    (s.run ≠ .idle → s.patch a v = .refused .notIdle)

/-- R206: the adapter is bound in `Idle` only, and nothing else changes. -/
def Obligations.AdapterIsBoundInIdleOnly : Prop :=
  ∀ (s : State) (src : Adapter),
    (s.run = .idle → s.setInputAdapter src = .next { s with adapter := src }) ∧
    (s.run ≠ .idle → s.setInputAdapter src = .refused .notIdle)

/-- R207: `is_running` is true in `Running` and `Paused` and false in `Idle` and `Halted`; a faulted instance that was
running stays `Running`. -/
def Obligations.IsRunningReportsRunningAndPaused : Prop :=
  (∀ s : State, s.isRunning = true ↔ s.run = .running ∨ s.run = .paused) ∧
  (∀ s t : State, step s = .next t → t.fault ≠ none → t.isRunning = true)

/-- R211: an entry-point call on a halted instance changes nothing and returns the whole log, or `NoOutputProduced`. -/
def Obligations.CallOnHaltedChangesNothing : Prop :=
  ∀ (s : State) (budget : Nat), s.fault = none → s.run = .halted →
    s.runToCompletion budget = .returned (.ok s.out) s ∧
    s.runToNextOutput budget = .returned .noOutputProduced s

/-- R212, R213: a call on an idle instance starts at address 0 and a call on a paused one goes on where it stopped; only
`run` and the model's mark (log entry 4) change beside that. -/
def Obligations.CallStartsOrResumes : Prop :=
  ∀ s : State, s.fault = none →
    (s.run = .idle →
      s.enter .runToCompletion = .entered { s with ip := 0, run := .running, nextOutputFrom := none } ∧
      s.enter .runToNextOutput = .entered { s with ip := 0, run := .running, nextOutputFrom := some s.out.length }) ∧
    (s.run = .paused →
      s.enter .runToCompletion = .entered { s with run := .running, nextOutputFrom := none } ∧
      s.enter .runToNextOutput = .entered { s with run := .running, nextOutputFrom := some s.out.length })

/-- R214: a call on a faulted instance returns the recorded fault at once, runs no step and changes nothing. -/
def Obligations.CallOnFaultedReturnsTheFault : Prop :=
  ∀ (s : State) (r : FaultRecord) (e : EntryPoint) (budget : Nat), s.fault = some r →
    s.call e budget = .returned (.error r.kind) s

/-- R215: a call while another is in progress is refused. -/
def Obligations.ReentrantCallIsRefused : Prop :=
  ∀ (s : State) (e : EntryPoint) (budget : Nat), s.InProgress → s.call e budget = .refused .callInProgress s

/-- R209, R210, for an instance that meets the invariant (a call of `run_to_next_output` is told by the model's own mark
`nextOutputFrom`, and the last clause is about that mark: log entry 4): from `Running`, a step pauses exactly when it is an OUT that
completes in `run_to_next_output`, halts exactly when it is HALT, and otherwise stays `Running`. -/
def Obligations.RunStateTransitionsOfAStep : Prop :=
  ∀ s t : State, s.Inv → step s = .next t →
    (t.run = .paused ↔
      s.nextOutputFrom ≠ none ∧ t.fault = none ∧ ∃ p1, decode s.fetchWords = .ok (.output p1)) ∧
    (t.run = .halted ↔ decode s.fetchWords = .ok .halt) ∧
    (t.run = .running ∨ t.run = .paused ∨ t.run = .halted) ∧
    (t.run ≠ .running ∨ t.fault ≠ none → t.nextOutputFrom = none)

/-- R209: a call of `run_to_next_output` that returns a value has paused the instance, and the value is the one output
the call appended. -/
def Obligations.NextOutputReturnsTheOneNewValue : Prop :=
  ∀ (s t : State) (budget : Nat) (v : Word),
    s.runToNextOutput budget = .returned (.value v) t → t.run = .paused ∧ t.fault = none ∧ t.out = s.out ++ [v]

/-- R220: a worker's turn forwards exactly a value its instance returned, and then goes on; it terminates, forwarding
nothing, when the instance halts without one. That a turn is one call under a step budget is the model's (log entry 14). -/
def Obligations.WorkerForwardsWhatTheCallReturns : Prop :=
  ∀ (s t : State) (budget : Nat), s.run ≠ .running →
    (∀ v, s.runToNextOutput budget = .returned (.value v) t →
      s.workerTurn budget = .forward v t ∧ t.isRunning = true) ∧
    (s.runToNextOutput budget = .returned .noOutputProduced t →
      s.workerTurn budget = .exit t ∧ t.isRunning = false)

/-- R221: a channel is FIFO: after the values `vs` are sent on an empty open channel, ordinal `k` is answered by the `k`-th
of them, and further requests wait. Two things are the model's choices: that once the sender has exited further requests ARE
answered `Unavailable`, where R222 says only that they may be (log entry 14), and that every send is accepted, with no
capacity bound (log entry 7). -/
def Obligations.ChannelIsFifo : Prop :=
  ∀ (vs : List Word) (k : Nat),
    let channel := vs.foldl (fun ad v => Adapter.send v ad) { answers := [], after := .noAnswer }
    (∀ h : k < vs.length, channel.request k = .value vs[k] ∧ channel.close.request k = .value vs[k]) ∧
    (vs.length ≤ k → channel.request k = .noAnswer ∧ channel.close.request k = .unavailable)

/-! ## Invariants -/

/-- The invariant holds at reset and after every load. -/
def Obligations.ResetAndLoadMeetTheInvariant : Prop :=
  State.reset.Inv ∧ ∀ (limit : Option Nat) (host : Nat) (text : String) (s : State), load limit host text = some s → s.Inv

/-- Every step keeps the invariant: the memory's canonical form, a faulted instance `Running`, a log that has not grown in
an unfinished `run_to_next_output`, an untouched `Idle` instance, an output behind every pause. -/
def Obligations.EveryStepKeepsTheInvariant : Prop :=
  ∀ s t : State, s.Inv → step s = .next t → t.Inv

/-- Every state that a host can reach by loads, patches, bindings, calls, messages and steps meets the invariant. -/
def Obligations.ReachableStatesMeetTheInvariant : Prop :=
  ∀ s : State, Reachable s → s.Inv

/-- R252: once a fault is recorded no step runs, every entry-point call returns it and changes nothing, and no transaction
or message of the host takes it away or changes it. -/
def Obligations.FaultIsPermanent : Prop :=
  ∀ (s : State) (r : FaultRecord), s.fault = some r →
    (∀ t, step s ≠ .next t) ∧
    (∀ e budget, s.call e budget = .returned (.error r.kind) s) ∧
    (∀ a v t, s.patch a v = .next t → t.fault = some r) ∧
    (∀ src t, s.setInputAdapter src = .next t → t.fault = some r) ∧
    (∀ v, (s.receiveFromHost v).fault = some r) ∧ s.hostExits.fault = some r

/-! ## The two ways of running -/

/-- R218, which the spec derives from R208, R209 and R212: pause/resume equivalence. Two instances that differ at most in
adapters that answer alike: if one runs to completion with the log `L`, then driving the other by
`run_to_next_output` until it reports `NoOutputProduced` is possible, returns values that make up `L` after the log
the two start with, and ends in the same memory, relative base and cursor. -/
def Obligations.PauseResumeEquivalence : Prop :=
  ∀ (s t : State) (src : Adapter) (budget : Nat) (log : List Word),
    s.fault = none → s.run = .idle ∨ s.run = .paused → (∀ k, src.request k = s.adapter.request k) →
    s.runToCompletion budget = .returned (.ok log) t →
    ∃ vs u, (s.bindAdapter src).drainOutputs budget (budget + 1) = some (vs, u) ∧
      log = s.out ++ vs ∧ u.out = log ∧ u.run = .halted ∧ u.mem = t.mem ∧ u.rb = t.rb ∧ u.cursor = t.cursor
end

