-- ==== Sys2Proof/Laws/Memory.lean ====
section
/-! SUPPORT. The laws of the memory: read after write, the frame of a write, and that every operation keeps the canonical
form. -/

namespace Sys2Proof.Machine

@[simp] theorem lookupCell_erase_same (cells : List Cell) (a : Nat) : lookupCell (eraseCell cells a) a = 0#64 := by
  induction cells with
  | nil => rfl
  | cons c rest ih =>
    obtain ⟨b, w⟩ := c
    by_cases h : b = a <;> simp [eraseCell, lookupCell, h, ih]

theorem lookupCell_erase_other (cells : List Cell) {a b : Nat} (h : b ≠ a) :
    lookupCell (eraseCell cells a) b = lookupCell cells b := by
  induction cells with
  | nil => rfl
  | cons c rest ih =>
    obtain ⟨x, w⟩ := c
    by_cases hx : x = a
    · subst hx
      simp [eraseCell, lookupCell, ih, Ne.symm h]
    · simp [eraseCell, lookupCell, hx, ih]

theorem lookupCell_insert_same (cells : List Cell) (a : Nat) (v : Word)
    (hn : ∀ w, (a, w) ∉ cells) : lookupCell (insertCell cells a v) a = v := by
  induction cells with
  | nil => simp [insertCell, lookupCell]
  | cons c rest ih =>
    obtain ⟨x, w⟩ := c
    have hx : x ≠ a := fun e => hn w (by simp [e])
    by_cases hl : a < x
    · simp [insertCell, lookupCell, hl]
    · simp only [insertCell, hl, if_false, lookupCell, if_neg hx]
      exact ih fun u hu => hn u (List.mem_cons_of_mem _ hu)

theorem lookupCell_insert_other (cells : List Cell) {a b : Nat} (v : Word) (h : b ≠ a) :
    lookupCell (insertCell cells a v) b = lookupCell cells b := by
  induction cells with
  | nil => simp [insertCell, lookupCell, Ne.symm h]
  | cons c rest ih =>
    obtain ⟨x, w⟩ := c
    by_cases hl : a < x
    · simp [insertCell, lookupCell, hl, Ne.symm h]
    · simp [insertCell, lookupCell, hl, ih]

theorem not_mem_eraseCell (cells : List Cell) (a : Nat) (w : Word) : (a, w) ∉ eraseCell cells a := by
  induction cells with
  | nil => simp [eraseCell]
  | cons c rest ih =>
    obtain ⟨x, u⟩ := c
    by_cases hx : x = a
    · simp [eraseCell, hx, ih]
    · simp [eraseCell, hx, ih, Ne.symm hx]

/-- Read after write, the same cell. -/
@[simp] theorem Memory.read_write_same (m : Memory) (a : Nat) (v : Word) : (m.write a v).read a = v := by
  unfold Memory.read Memory.write storeCell
  by_cases hv : v = 0#64
  · simp [hv]
  · simp [hv, lookupCell_insert_same _ a v (fun w => not_mem_eraseCell m.cells a w)]

/-- The frame of a write: every other cell reads as before. -/
theorem Memory.read_write_other (m : Memory) {a b : Nat} (v : Word) (h : b ≠ a) :
    (m.write a v).read b = m.read b := by
  unfold Memory.read Memory.write storeCell
  by_cases hv : v = 0#64
  · simp [hv, lookupCell_erase_other _ h]
  · simp [hv, lookupCell_insert_other _ v h, lookupCell_erase_other _ h]

@[simp] theorem Memory.len_write (m : Memory) (a : Nat) (v : Word) : (m.write a v).len = max m.len (a + 1) := rfl

/-- A canonical list of cells stays one when its bounds are widened. -/
theorem cellsWf_mono {cells : List Cell} {lo lo' len len' : Nat} (hlo : lo' ≤ lo) (hlen : len ≤ len')
    (h : cellsWf lo len cells = true) : cellsWf lo' len' cells = true := by
  induction cells generalizing lo lo' with
  | nil => rfl
  | cons c rest ih =>
    obtain ⟨x, w⟩ := c
    simp only [cellsWf, Bool.and_eq_true, decide_eq_true_eq] at h ⊢
    obtain ⟨⟨⟨h1, h2⟩, h3⟩, h4⟩ := h
    exact ⟨⟨⟨by omega, by omega⟩, h3⟩, ih (le_refl _) h4⟩

theorem cellsWf_erase {cells : List Cell} {lo len : Nat} (a : Nat) (h : cellsWf lo len cells = true) :
    cellsWf lo len (eraseCell cells a) = true := by
  induction cells generalizing lo with
  | nil => rfl
  | cons c rest ih =>
    obtain ⟨x, w⟩ := c
    simp only [cellsWf, Bool.and_eq_true, decide_eq_true_eq] at h
    obtain ⟨⟨⟨h1, h2⟩, h3⟩, h4⟩ := h
    by_cases hx : x = a
    · simp only [eraseCell, hx, if_true]
      exact cellsWf_mono (by omega) (le_refl _) (ih h4)
    · simp only [eraseCell, if_neg hx, cellsWf, Bool.and_eq_true, decide_eq_true_eq]
      exact ⟨⟨⟨h1, h2⟩, h3⟩, ih h4⟩

theorem cellsWf_insert {cells : List Cell} {lo len a : Nat} {v : Word} (hlo : lo ≤ a) (ha : a < len) (hv : v ≠ 0#64)
    (hn : ∀ w, (a, w) ∉ cells) (h : cellsWf lo len cells = true) : cellsWf lo len (insertCell cells a v) = true := by
  induction cells generalizing lo with
  | nil => simp [insertCell, cellsWf, hlo, ha, hv]
  | cons c rest ih =>
    obtain ⟨x, w⟩ := c
    have hx : x ≠ a := fun e => hn w (by simp [e])
    simp only [cellsWf, Bool.and_eq_true, decide_eq_true_eq] at h
    obtain ⟨⟨⟨h1, h2⟩, h3⟩, h4⟩ := h
    by_cases hl : a < x
    · simp only [insertCell, if_pos hl, cellsWf, Bool.and_eq_true, decide_eq_true_eq]
      exact ⟨⟨⟨hlo, ha⟩, hv⟩, ⟨⟨⟨by omega, h2⟩, h3⟩, h4⟩⟩
    · simp only [insertCell, if_neg hl, cellsWf, Bool.and_eq_true, decide_eq_true_eq]
      exact ⟨⟨⟨h1, h2⟩, h3⟩, ih (by omega) (fun u hu => hn u (List.mem_cons_of_mem _ hu)) h4⟩

/-- A write keeps the canonical form. -/
theorem Memory.wf_write {m : Memory} (h : m.wf = true) (a : Nat) (v : Word) : (m.write a v).wf = true := by
  unfold Memory.wf at h ⊢
  have he := cellsWf_erase a (cellsWf_mono (le_refl 0) (le_max_left m.len (a + 1)) h)
  by_cases hv : v = 0#64
  · simpa [Memory.write, storeCell, hv] using he
  · simp only [Memory.write, storeCell, if_neg hv]
    exact cellsWf_insert (Nat.zero_le a) (by omega) hv (fun w => not_mem_eraseCell _ a w) he

/-- Storing a list of words keeps the canonical form. -/
theorem Memory.wf_writeList {m : Memory} (h : m.wf = true) (a : Nat) (ws : List Word) :
    (m.writeList a ws).wf = true := by
  induction ws generalizing a with
  | nil => exact h
  | cons w ws ih => exact Memory.wf_write (ih (a + 1)) a w

theorem cellsWf_cellsFrom (base len : Nat) (ws : List Word) (h : base + ws.length ≤ len) :
    cellsWf base len (cellsFrom base ws) = true := by
  induction ws generalizing base with
  | nil => rfl
  | cons w ws ih =>
    have hi := ih (base + 1) (by simp only [List.length_cons] at h; omega)
    by_cases hw : w = 0#64
    · simpa [cellsFrom, hw] using cellsWf_mono (Nat.le_succ base) (le_refl len) hi
    · simp only [cellsFrom, if_neg hw, cellsWf, Bool.and_eq_true, decide_eq_true_eq]
      simp only [List.length_cons] at h
      exact ⟨⟨⟨le_refl _, by omega⟩, hw⟩, hi⟩

/-- A loaded memory is in canonical form. -/
theorem Memory.wf_ofList (ws : List Word) : (Memory.ofList ws).wf = true :=
  cellsWf_cellsFrom 0 ws.length ws (by omega)

theorem lookupCell_below {cells : List Cell} {lo len a : Nat} (h : cellsWf lo len cells = true) (ha : a < lo) :
    lookupCell cells a = 0#64 := by
  induction cells generalizing lo with
  | nil => rfl
  | cons c rest ih =>
    obtain ⟨x, w⟩ := c
    simp only [cellsWf, Bool.and_eq_true, decide_eq_true_eq] at h
    obtain ⟨⟨⟨h1, h2⟩, h3⟩, h4⟩ := h
    have hx : x ≠ a := by omega
    simpa [lookupCell, hx] using ih h4 (by omega)

theorem lookupCell_beyond {cells : List Cell} {lo len a : Nat} (h : cellsWf lo len cells = true) (ha : len ≤ a) :
    lookupCell cells a = 0#64 := by
  induction cells generalizing lo with
  | nil => rfl
  | cons c rest ih =>
    obtain ⟨x, w⟩ := c
    simp only [cellsWf, Bool.and_eq_true, decide_eq_true_eq] at h
    obtain ⟨⟨⟨h1, h2⟩, h3⟩, h4⟩ := h
    have hx : x ≠ a := by omega
    simpa [lookupCell, hx] using ih h4

/-- A cell beyond the end of a canonical memory reads 0 (R51). -/
theorem Memory.read_beyond {m : Memory} (h : m.wf = true) {a : Nat} (ha : m.len ≤ a) : m.read a = 0#64 :=
  lookupCell_beyond h ha

theorem lookupCell_cellsFrom (base : Nat) (ws : List Word) (a : Nat) :
    lookupCell (cellsFrom base ws) (base + a) = ws.getD a 0#64 := by
  induction ws generalizing base a with
  | nil => simp [cellsFrom, lookupCell]
  | cons w ws ih =>
    cases a with
    | zero =>
      by_cases hw : w = 0#64
      · simpa [cellsFrom, hw] using
          lookupCell_below (cellsWf_cellsFrom (base + 1) _ ws (le_refl _)) (Nat.lt_succ_self base)
      · simp [cellsFrom, hw, lookupCell]
    | succ a =>
      have h := ih (base + 1) a
      have e : base + 1 + a = base + (a + 1) := by omega
      rw [e] at h
      by_cases hw : w = 0#64
      · simpa [cellsFrom, hw] using h
      · simpa [cellsFrom, hw, lookupCell] using h

/-- A loaded memory reads as its words, and 0 beyond them (R22, R61). -/
theorem Memory.read_ofList (ws : List Word) (a : Nat) : (Memory.ofList ws).read a = ws.getD a 0#64 := by
  have h := lookupCell_cellsFrom 0 ws a
  rwa [Nat.zero_add] at h

theorem cells_ext {l1 l2 : List Cell} {lo len1 len2 : Nat} (h1 : cellsWf lo len1 l1 = true)
    (h2 : cellsWf lo len2 l2 = true) (h : ∀ a, lookupCell l1 a = lookupCell l2 a) : l1 = l2 := by
  induction l1 generalizing lo l2 with
  | nil =>
    cases l2 with
    | nil => rfl
    | cons c rest =>
      obtain ⟨x, w⟩ := c
      simp only [cellsWf, Bool.and_eq_true, decide_eq_true_eq] at h2
      exact absurd (by simpa [lookupCell] using (h x).symm) h2.1.2
  | cons c rest ih =>
    obtain ⟨x, w⟩ := c
    cases l2 with
    | nil =>
      simp only [cellsWf, Bool.and_eq_true, decide_eq_true_eq] at h1
      exact absurd (by simpa [lookupCell] using h x) h1.1.2
    | cons c2 rest2 =>
      obtain ⟨y, u⟩ := c2
      simp only [cellsWf, Bool.and_eq_true, decide_eq_true_eq] at h1 h2
      obtain ⟨⟨⟨a1, a2⟩, a3⟩, a4⟩ := h1
      obtain ⟨⟨⟨b1, b2⟩, b3⟩, b4⟩ := h2
      have hxy : x = y := by
        rcases lt_trichotomy x y with hl | he | hl
        · have e := h x
          have z : lookupCell rest2 x = 0#64 := lookupCell_below b4 (by omega)
          simp [lookupCell, Nat.ne_of_gt hl, z] at e
          exact absurd e a3
        · exact he
        · have e := h y
          have z : lookupCell rest y = 0#64 := lookupCell_below a4 (by omega)
          simp [lookupCell, Nat.ne_of_gt hl, z] at e
          exact absurd e.symm b3
      subst hxy
      have hw : w = u := by simpa [lookupCell] using h x
      subst hw
      have hr : ∀ a, lookupCell rest a = lookupCell rest2 a := by
        intro a
        by_cases hax : a ≤ x
        · rw [lookupCell_below a4 (by omega), lookupCell_below b4 (by omega)]
        · have hne : x ≠ a := by omega
          simpa [lookupCell, hne] using h a
      rw [ih a4 b4 hr]

/-- Two canonical memories of one length that read alike are equal data. -/
theorem Memory.ext_of_read {m n : Memory} (hm : m.wf = true) (hn : n.wf = true) (hl : m.len = n.len)
    (h : ∀ a, m.read a = n.read a) : m = n := by
  obtain ⟨c1, l1⟩ := m
  obtain ⟨c2, l2⟩ := n
  simp only at hl
  subst hl
  have e : c1 = c2 := cells_ext hm hn h
  rw [e]

/-- The store of `MemWrite` below the limit (R52). -/
theorem State.memWrite_ok {s : State} {a : Nat} {v : Word} (h : beyondLimit s.memLimit a = false) :
    s.memWrite a v = .ok { s with mem := s.mem.write a v } := by
  simp [State.memWrite, h]

/-- `MemWrite` at or above the limit (R70). -/
theorem State.memWrite_error {s : State} {a : Nat} {v : Word} (h : beyondLimit s.memLimit a = true) :
    s.memWrite a v = .error .memoryExhausted := by
  simp [State.memWrite, h]

/-- Everything `MemWrite` can do. -/
theorem State.memWrite_cases (s : State) (a : Nat) (v : Word) :
    s.memWrite a v = .ok { s with mem := s.mem.write a v } ∨ s.memWrite a v = .error .memoryExhausted := by
  unfold State.memWrite
  split
  · exact .inr rfl
  · exact .inl rfl

end Sys2Proof.Machine
end

