-- ==== Sys2Proof/Laws/State.lean ====
section
/-! SUPPORT. One lemma per field per update of the state, true by unfolding the record update once. -/

namespace Sys2Proof.Machine

section
variable (s : State)

@[simp] theorem State.advance_mem (n : Nat) : (s.advance n).mem = s.mem := rfl
@[simp] theorem State.advance_ip (n : Nat) : (s.advance n).ip = s.ip + n := rfl
@[simp] theorem State.advance_rb (n : Nat) : (s.advance n).rb = s.rb := rfl
@[simp] theorem State.advance_run (n : Nat) : (s.advance n).run = s.run := rfl
@[simp] theorem State.advance_out (n : Nat) : (s.advance n).out = s.out := rfl
@[simp] theorem State.advance_cursor (n : Nat) : (s.advance n).cursor = s.cursor := rfl
@[simp] theorem State.advance_fault (n : Nat) : (s.advance n).fault = s.fault := rfl
@[simp] theorem State.advance_adapter (n : Nat) : (s.advance n).adapter = s.adapter := rfl
@[simp] theorem State.advance_nextOutputFrom (n : Nat) : (s.advance n).nextOutputFrom = s.nextOutputFrom := rfl
@[simp] theorem State.advance_memLimit (n : Nat) : (s.advance n).memLimit = s.memLimit := rfl

@[simp] theorem State.setIp_mem (t : Nat) : (s.setIp t).mem = s.mem := rfl
@[simp] theorem State.setIp_ip (t : Nat) : (s.setIp t).ip = t := rfl
@[simp] theorem State.setIp_rb (t : Nat) : (s.setIp t).rb = s.rb := rfl
@[simp] theorem State.setIp_run (t : Nat) : (s.setIp t).run = s.run := rfl
@[simp] theorem State.setIp_out (t : Nat) : (s.setIp t).out = s.out := rfl
@[simp] theorem State.setIp_cursor (t : Nat) : (s.setIp t).cursor = s.cursor := rfl
@[simp] theorem State.setIp_fault (t : Nat) : (s.setIp t).fault = s.fault := rfl
@[simp] theorem State.setIp_adapter (t : Nat) : (s.setIp t).adapter = s.adapter := rfl
@[simp] theorem State.setIp_nextOutputFrom (t : Nat) : (s.setIp t).nextOutputFrom = s.nextOutputFrom := rfl
@[simp] theorem State.setIp_memLimit (t : Nat) : (s.setIp t).memLimit = s.memLimit := rfl

@[simp] theorem State.setRb_mem (v : Word) : (s.setRb v).mem = s.mem := rfl
@[simp] theorem State.setRb_ip (v : Word) : (s.setRb v).ip = s.ip := rfl
@[simp] theorem State.setRb_rb (v : Word) : (s.setRb v).rb = v := rfl
@[simp] theorem State.setRb_run (v : Word) : (s.setRb v).run = s.run := rfl
@[simp] theorem State.setRb_out (v : Word) : (s.setRb v).out = s.out := rfl
@[simp] theorem State.setRb_cursor (v : Word) : (s.setRb v).cursor = s.cursor := rfl
@[simp] theorem State.setRb_fault (v : Word) : (s.setRb v).fault = s.fault := rfl
@[simp] theorem State.setRb_adapter (v : Word) : (s.setRb v).adapter = s.adapter := rfl
@[simp] theorem State.setRb_nextOutputFrom (v : Word) : (s.setRb v).nextOutputFrom = s.nextOutputFrom := rfl
@[simp] theorem State.setRb_memLimit (v : Word) : (s.setRb v).memLimit = s.memLimit := rfl

@[simp] theorem State.outputAppend_mem (v : Word) : (s.outputAppend v).mem = s.mem := rfl
@[simp] theorem State.outputAppend_ip (v : Word) : (s.outputAppend v).ip = s.ip := rfl
@[simp] theorem State.outputAppend_rb (v : Word) : (s.outputAppend v).rb = s.rb := rfl
@[simp] theorem State.outputAppend_run (v : Word) : (s.outputAppend v).run = s.run := rfl
@[simp] theorem State.outputAppend_out (v : Word) : (s.outputAppend v).out = s.out ++ [v] := rfl
@[simp] theorem State.outputAppend_cursor (v : Word) : (s.outputAppend v).cursor = s.cursor := rfl
@[simp] theorem State.outputAppend_fault (v : Word) : (s.outputAppend v).fault = s.fault := rfl
@[simp] theorem State.outputAppend_adapter (v : Word) : (s.outputAppend v).adapter = s.adapter := rfl
@[simp] theorem State.outputAppend_nextOutputFrom (v : Word) : (s.outputAppend v).nextOutputFrom = s.nextOutputFrom := rfl
@[simp] theorem State.outputAppend_memLimit (v : Word) : (s.outputAppend v).memLimit = s.memLimit := rfl

@[simp] theorem State.countRequest_mem : (s.countRequest).mem = s.mem := rfl
@[simp] theorem State.countRequest_ip : (s.countRequest).ip = s.ip := rfl
@[simp] theorem State.countRequest_rb : (s.countRequest).rb = s.rb := rfl
@[simp] theorem State.countRequest_run : (s.countRequest).run = s.run := rfl
@[simp] theorem State.countRequest_out : (s.countRequest).out = s.out := rfl
@[simp] theorem State.countRequest_cursor : (s.countRequest).cursor = s.cursor + 1 := rfl
@[simp] theorem State.countRequest_fault : (s.countRequest).fault = s.fault := rfl
@[simp] theorem State.countRequest_adapter : (s.countRequest).adapter = s.adapter := rfl
@[simp] theorem State.countRequest_nextOutputFrom : (s.countRequest).nextOutputFrom = s.nextOutputFrom := rfl
@[simp] theorem State.countRequest_memLimit : (s.countRequest).memLimit = s.memLimit := rfl

@[simp] theorem State.raise_mem (k : Fault) (a : Nat) : (s.raise k a).mem = s.mem := rfl
@[simp] theorem State.raise_ip (k : Fault) (a : Nat) : (s.raise k a).ip = s.ip := rfl
@[simp] theorem State.raise_rb (k : Fault) (a : Nat) : (s.raise k a).rb = s.rb := rfl
@[simp] theorem State.raise_run (k : Fault) (a : Nat) : (s.raise k a).run = s.run := rfl
@[simp] theorem State.raise_out (k : Fault) (a : Nat) : (s.raise k a).out = s.out := rfl
@[simp] theorem State.raise_cursor (k : Fault) (a : Nat) : (s.raise k a).cursor = s.cursor := rfl
@[simp] theorem State.raise_fault (k : Fault) (a : Nat) : (s.raise k a).fault = some { kind := k, addr := a } := rfl
@[simp] theorem State.raise_adapter (k : Fault) (a : Nat) : (s.raise k a).adapter = s.adapter := rfl
@[simp] theorem State.raise_nextOutputFrom (k : Fault) (a : Nat) : (s.raise k a).nextOutputFrom = s.nextOutputFrom := rfl
@[simp] theorem State.raise_memLimit (k : Fault) (a : Nat) : (s.raise k a).memLimit = s.memLimit := rfl

@[simp] theorem State.runningWith_mem (ws : List Word) : (s.runningWith ws).mem = s.mem.writeList s.ip ws := rfl
@[simp] theorem State.runningWith_ip (ws : List Word) : (s.runningWith ws).ip = s.ip := rfl
@[simp] theorem State.runningWith_rb (ws : List Word) : (s.runningWith ws).rb = s.rb := rfl
@[simp] theorem State.runningWith_run (ws : List Word) : (s.runningWith ws).run = .running := rfl
@[simp] theorem State.runningWith_out (ws : List Word) : (s.runningWith ws).out = s.out := rfl
@[simp] theorem State.runningWith_cursor (ws : List Word) : (s.runningWith ws).cursor = s.cursor := rfl
@[simp] theorem State.runningWith_fault (ws : List Word) : (s.runningWith ws).fault = none := rfl
@[simp] theorem State.runningWith_adapter (ws : List Word) : (s.runningWith ws).adapter = s.adapter := rfl
@[simp] theorem State.runningWith_nextOutputFrom (ws : List Word) : (s.runningWith ws).nextOutputFrom = none := rfl
@[simp] theorem State.runningWith_memLimit (ws : List Word) : (s.runningWith ws).memLimit = s.memLimit := rfl

@[simp] theorem State.receiveFromHost_mem (v : Word) : (s.receiveFromHost v).mem = s.mem := rfl
@[simp] theorem State.receiveFromHost_ip (v : Word) : (s.receiveFromHost v).ip = s.ip := rfl
@[simp] theorem State.receiveFromHost_rb (v : Word) : (s.receiveFromHost v).rb = s.rb := rfl
@[simp] theorem State.receiveFromHost_run (v : Word) : (s.receiveFromHost v).run = s.run := rfl
@[simp] theorem State.receiveFromHost_out (v : Word) : (s.receiveFromHost v).out = s.out := rfl
@[simp] theorem State.receiveFromHost_cursor (v : Word) : (s.receiveFromHost v).cursor = s.cursor := rfl
@[simp] theorem State.receiveFromHost_fault (v : Word) : (s.receiveFromHost v).fault = s.fault := rfl
@[simp] theorem State.receiveFromHost_adapter (v : Word) : (s.receiveFromHost v).adapter = s.adapter.send v := rfl
@[simp] theorem State.receiveFromHost_nextOutputFrom (v : Word) : (s.receiveFromHost v).nextOutputFrom = s.nextOutputFrom := rfl
@[simp] theorem State.receiveFromHost_memLimit (v : Word) : (s.receiveFromHost v).memLimit = s.memLimit := rfl

@[simp] theorem State.hostExits_mem : (s.hostExits).mem = s.mem := rfl
@[simp] theorem State.hostExits_ip : (s.hostExits).ip = s.ip := rfl
@[simp] theorem State.hostExits_rb : (s.hostExits).rb = s.rb := rfl
@[simp] theorem State.hostExits_run : (s.hostExits).run = s.run := rfl
@[simp] theorem State.hostExits_out : (s.hostExits).out = s.out := rfl
@[simp] theorem State.hostExits_cursor : (s.hostExits).cursor = s.cursor := rfl
@[simp] theorem State.hostExits_fault : (s.hostExits).fault = s.fault := rfl
@[simp] theorem State.hostExits_adapter : (s.hostExits).adapter = s.adapter.close := rfl
@[simp] theorem State.hostExits_nextOutputFrom : (s.hostExits).nextOutputFrom = s.nextOutputFrom := rfl
@[simp] theorem State.hostExits_memLimit : (s.hostExits).memLimit = s.memLimit := rfl

@[simp] theorem State.bindAdapter_mem (src : Adapter) : (s.bindAdapter src).mem = s.mem := rfl
@[simp] theorem State.bindAdapter_ip (src : Adapter) : (s.bindAdapter src).ip = s.ip := rfl
@[simp] theorem State.bindAdapter_rb (src : Adapter) : (s.bindAdapter src).rb = s.rb := rfl
@[simp] theorem State.bindAdapter_run (src : Adapter) : (s.bindAdapter src).run = s.run := rfl
@[simp] theorem State.bindAdapter_out (src : Adapter) : (s.bindAdapter src).out = s.out := rfl
@[simp] theorem State.bindAdapter_cursor (src : Adapter) : (s.bindAdapter src).cursor = s.cursor := rfl
@[simp] theorem State.bindAdapter_fault (src : Adapter) : (s.bindAdapter src).fault = s.fault := rfl
@[simp] theorem State.bindAdapter_adapter (src : Adapter) : (s.bindAdapter src).adapter = src := rfl
@[simp] theorem State.bindAdapter_nextOutputFrom (src : Adapter) : (s.bindAdapter src).nextOutputFrom = s.nextOutputFrom := rfl
@[simp] theorem State.bindAdapter_memLimit (src : Adapter) : (s.bindAdapter src).memLimit = s.memLimit := rfl

@[simp] theorem State.begin_mem (e : EntryPoint) : (s.begin e).mem = s.mem := by cases e <;> rfl
@[simp] theorem State.begin_ip (e : EntryPoint) : (s.begin e).ip = s.ip := by cases e <;> rfl
@[simp] theorem State.begin_rb (e : EntryPoint) : (s.begin e).rb = s.rb := by cases e <;> rfl
@[simp] theorem State.begin_run (e : EntryPoint) : (s.begin e).run = .running := by cases e <;> rfl
@[simp] theorem State.begin_out (e : EntryPoint) : (s.begin e).out = s.out := by cases e <;> rfl
@[simp] theorem State.begin_cursor (e : EntryPoint) : (s.begin e).cursor = s.cursor := by cases e <;> rfl
@[simp] theorem State.begin_fault (e : EntryPoint) : (s.begin e).fault = s.fault := by cases e <;> rfl
@[simp] theorem State.begin_adapter (e : EntryPoint) : (s.begin e).adapter = s.adapter := by cases e <;> rfl

@[simp] theorem State.begin_memLimit (e : EntryPoint) : (s.begin e).memLimit = s.memLimit := by cases e <;> rfl

end

@[simp] theorem State.finish_ok (a : Nat) (s t : State) : s.finish a (.ok t) = t := rfl
@[simp] theorem State.finish_error (a : Nat) (s : State) (k : Fault) : s.finish a (.error k) = s.raise k a := rfl

end Sys2Proof.Machine
end

