-- ==== Sys2Proof/Laws/Exec.lean ====
section
/-! SUPPORT. One specification per shared operation of the instructions: operand resolution, the range check, and
everything each instruction shape can do. Later proofs cite these instead of unfolding the operations. -/

namespace Sys2Proof.Machine

theorem Word.inWord (w : Word) : InWord w.toInt := by
  have h1 := BitVec.le_toInt w
  have h2 := BitVec.toInt_lt (x := w)
  simp only [InWord, wordMin, wordMax]
  norm_num at h1 h2
  omega

theorem Word.toInt_ofInt {x : Int} (h : InWord x) : (Word.ofInt x).toInt = x := by
  simp only [InWord, wordMin, wordMax] at h
  exact BitVec.toInt_ofInt_eq_self (by norm_num) (by norm_num; omega) (by norm_num; omega)

theorem Word.ofInt_toInt (w : Word) : Word.ofInt w.toInt = w :=
  BitVec.eq_of_toInt_eq (Word.toInt_ofInt (Word.inWord w))

/-- The range check lets a word's own value through (R142). -/
theorem checkWord_of_toInt {x : Int} {r : Word} (h : r.toInt = x) : checkWord x = .ok r := by
  subst h
  simp [checkWord, Word.inWord, Word.ofInt_toInt]

/-- The range check refuses a value outside the word range (R142). -/
theorem checkWord_error {x : Int} (h : ¬ InWord x) : checkWord x = .error .arithmeticOverflow := by
  simp only [checkWord, if_neg h]

/-- Everything the range check can answer. -/
theorem checkWord_cases (x : Int) :
    (∃ r : Word, r.toInt = x ∧ checkWord x = .ok r) ∨ (¬ InWord x ∧ checkWord x = .error .arithmeticOverflow) := by
  by_cases h : InWord x
  · exact .inl ⟨Word.ofInt x, Word.toInt_ofInt h, by simp only [checkWord, if_pos h]⟩
  · exact .inr ⟨h, checkWord_error h⟩

/-- Operand resolution reads only the memory and the relative base. -/
theorem State.readOperand_congr {s t : State} (hm : t.mem = s.mem) (hr : t.rb = s.rb) (p : Param) :
    t.readOperand p = s.readOperand p := by
  unfold State.readOperand
  rw [hm, hr]

theorem State.writeAddress_congr {s t : State} (hr : t.rb = s.rb) (p : Param) :
    t.writeAddress p = s.writeAddress p := by
  unfold State.writeAddress
  rw [hr]

@[simp] theorem State.readOperand_advance (s : State) (n : Nat) (p : Param) :
    (s.advance n).readOperand p = s.readOperand p := State.readOperand_congr rfl rfl p

@[simp] theorem State.writeAddress_advance (s : State) (n : Nat) (p : Param) :
    (s.advance n).writeAddress p = s.writeAddress p := State.writeAddress_congr rfl p

theorem State.raise_advance (s : State) (n : Nat) (k : Fault) : (s.advance n).raise k s.ip = s.faultedAfter n k := rfl

/-- The fault of a position address, and its cause (R54). -/
theorem positionAddress_error {d : Word} {k : Fault} (h : positionAddress d = .error k) :
    k = .invalidAddress ∧ d.toInt < 0 := by
  unfold positionAddress at h
  split at h
  · rename_i hd
    injection h with h
    exact ⟨h.symm, hd⟩
  · simp at h

/-- The faults of a relative address, and their causes (R57). -/
theorem relativeAddress_error {rb d : Word} {k : Fault} (h : relativeAddress rb d = .error k) :
    k = .invalidAddress ∧ rb.toInt + d.toInt < 0 ∨ k = .arithmeticOverflow ∧ wordMax < rb.toInt + d.toInt := by
  unfold relativeAddress at h
  simp only at h
  split at h
  · rename_i hd
    injection h with h
    exact .inl ⟨h.symm, hd⟩
  · split at h
    · rename_i hd
      injection h with h
      exact .inr ⟨h.symm, hd⟩
    · simp at h

/-- Why the parameter `p` of role `r` does not resolve, for the fault `k` it raises (R123, R243, R246). -/
abbrev State.ResolutionCause (s : State) (k : Fault) (p : Param) (r : Role) : Prop :=
  k = .invalidAddress ∧ s.InvalidParam p r ∨ k = .arithmeticOverflow ∧ s.OverflowingParam p

/-- The faults of resolving a read parameter, and their causes. -/
theorem State.readOperand_error {s : State} {p : Param} {k : Fault} (h : s.readOperand p = .error k) (r : Role) :
    s.ResolutionCause k p r := by
  obtain ⟨m, d⟩ := p
  cases m with
  | immediate => simp [State.readOperand] at h
  | position =>
    simp only [State.readOperand] at h
    cases ha : positionAddress d <;> simp only [ha, reduceCtorEq, Except.error.injEq] at h
    subst h
    obtain ⟨hk, hd⟩ := positionAddress_error ha
    exact .inl ⟨hk, .inl ⟨rfl, hd⟩⟩
  | relative =>
    simp only [State.readOperand] at h
    cases ha : relativeAddress s.rb d <;> simp only [ha, reduceCtorEq, Except.error.injEq] at h
    subst h
    rcases relativeAddress_error ha with ⟨hk, hd⟩ | ⟨hk, hd⟩
    · exact .inl ⟨hk, .inr (.inl ⟨rfl, hd⟩)⟩
    · exact .inr ⟨hk, rfl, hd⟩

/-- The faults of resolving a write parameter, and their causes. -/
theorem State.writeAddress_error {s : State} {p : Param} {k : Fault} (h : s.writeAddress p = .error k) :
    s.ResolutionCause k p .write := by
  obtain ⟨m, d⟩ := p
  cases m with
  | immediate =>
    simp only [State.writeAddress, Except.error.injEq] at h
    exact .inl ⟨h.symm, .inr (.inr ⟨rfl, rfl⟩)⟩
  | position =>
    obtain ⟨hk, hd⟩ := positionAddress_error h
    exact .inl ⟨hk, .inl ⟨rfl, hd⟩⟩
  | relative =>
    rcases relativeAddress_error h with ⟨hk, hd⟩ | ⟨hk, hd⟩
    · exact .inl ⟨hk, .inr (.inl ⟨rfl, hd⟩)⟩
    · exact .inr ⟨hk, rfl, hd⟩

/-- The first resolution fault is that of one of the parameters, and has its cause (R117, R123). -/
theorem State.firstFault_cause {s : State} {k : Fault} {rs : List Role} {ps : List Param}
    (h : s.firstFault rs ps = some k) : ∃ p r, (p, r) ∈ ps.zip rs ∧ s.ResolutionCause k p r := by
  induction rs generalizing ps with
  | nil => simp [State.firstFault] at h
  | cons r rs ih =>
    cases ps with
    | nil => cases r <;> simp [State.firstFault] at h
    | cons p ps =>
      cases r with
      | read =>
        simp only [State.firstFault] at h
        cases hp : s.readOperand p with
        | error e =>
          simp only [hp, Option.some.injEq] at h
          subst h
          exact ⟨p, .read, by simp, State.readOperand_error hp _⟩
        | ok v =>
          simp only [hp] at h
          obtain ⟨q, r, hm, hc⟩ := ih h
          exact ⟨q, r, List.mem_cons_of_mem _ hm, hc⟩
      | write =>
        simp only [State.firstFault] at h
        cases hp : s.writeAddress p with
        | error e =>
          simp only [hp, Option.some.injEq] at h
          subst h
          exact ⟨p, .write, by simp, State.writeAddress_error hp⟩
        | ok v =>
          simp only [hp] at h
          obtain ⟨q, r, hm, hc⟩ := ih h
          exact ⟨q, r, List.mem_cons_of_mem _ hm, hc⟩

section
variable {s : State} {p1 p2 p3 : Param} {v1 v2 : Word} {k : Fault}

theorem State.withTwoReads_ok {go : Word → Word → Except Fault State} (h1 : s.readOperand p1 = .ok v1)
    (h2 : s.readOperand p2 = .ok v2) : s.withTwoReads p1 p2 go = go v1 v2 := by
  simp only [State.withTwoReads, h1, h2]

/-- Format F3, everything resolved: the result is computed and written (R122). -/
theorem State.computeInto_ok {f : Word → Word → Except Fault Word} {t : Nat} {r : Word}
    (h1 : s.readOperand p1 = .ok v1) (h2 : s.readOperand p2 = .ok v2) (h3 : s.writeAddress p3 = .ok t)
    (hf : f v1 v2 = .ok r) (hl : beyondLimit s.memLimit t = false) :
    s.computeInto f p1 p2 p3 = { s with ip := s.ip + 4, mem := s.mem.write t r } := by
  simp only [State.computeInto, State.withTwoReads, State.readOperand_advance, State.writeAddress_advance, h1, h2, h3, hf]
  rw [State.memWrite_ok (by simpa using hl)]
  rfl

/-- Format F3, a fault of the computation (R119). -/
theorem State.computeInto_effect_error {f : Word → Word → Except Fault Word} {t : Nat}
    (h1 : s.readOperand p1 = .ok v1) (h2 : s.readOperand p2 = .ok v2) (h3 : s.writeAddress p3 = .ok t)
    (hf : f v1 v2 = .error k) : s.computeInto f p1 p2 p3 = s.faultedAfter 4 k := by
  simp only [State.computeInto, State.withTwoReads, State.readOperand_advance, State.writeAddress_advance, h1, h2, h3, hf]
  rfl

/-- Format F3, a write at or above the memory limit (R70). -/
theorem State.computeInto_exhausted {f : Word → Word → Except Fault Word} {t : Nat} {r : Word}
    (h1 : s.readOperand p1 = .ok v1) (h2 : s.readOperand p2 = .ok v2) (h3 : s.writeAddress p3 = .ok t)
    (hf : f v1 v2 = .ok r) (hl : beyondLimit s.memLimit t = true) :
    s.computeInto f p1 p2 p3 = s.faultedAfter 4 .memoryExhausted := by
  simp only [State.computeInto, State.withTwoReads, State.readOperand_advance, State.writeAddress_advance, h1, h2, h3, hf]
  rw [State.memWrite_error (by simpa using hl)]
  rfl

/-- Format F3, the first resolution fault ends the step (R117, R123). -/
theorem State.computeInto_firstFault {f : Word → Word → Except Fault Word}
    (h : s.firstFault [.read, .read, .write] [p1, p2, p3] = some k) :
    s.computeInto f p1 p2 p3 = s.faultedAfter 4 k := by
  simp only [State.firstFault] at h
  simp only [State.computeInto, State.withTwoReads, State.readOperand_advance, State.writeAddress_advance]
  cases h1 : s.readOperand p1 with
  | error k1 => simp only [h1, Option.some.injEq] at h; subst h; rfl
  | ok v1 =>
    cases h2 : s.readOperand p2 with
    | error k2 => simp only [h1, h2, Option.some.injEq] at h; subst h; rfl
    | ok v2 =>
      cases h3 : s.writeAddress p3 with
      | error k3 => simp only [h1, h2, h3, Option.some.injEq] at h; subst h; rfl
      | ok t => simp only [h1, h2, h3, reduceCtorEq] at h

/-- A fault that resolving operands can raise (R123). -/
abbrev IsResolutionFault (k : Fault) : Prop := k = .invalidAddress ∨ k = .arithmeticOverflow

theorem State.ResolutionCause.isResolutionFault {p : Param} {r : Role} (h : s.ResolutionCause k p r) :
    IsResolutionFault k := h.imp And.left And.left

theorem State.firstFault_isResolutionFault {rs : List Role} {ps : List Param} (h : s.firstFault rs ps = some k) :
    IsResolutionFault k := by
  obtain ⟨p, r, -, hc⟩ := State.firstFault_cause h
  exact hc.isResolutionFault

/-- Everything an instruction of format F3 can do: a fault of resolution, of the computation or of the memory limit, with
nothing else done, or one cell written. -/
theorem State.computeInto_cases (s : State) (f : Word → Word → Except Fault Word) (p1 p2 p3 : Param) :
    (∃ k, (s.firstFault [.read, .read, .write] [p1, p2, p3] = some k ∨
        (∃ v1 v2, s.readOperand p1 = .ok v1 ∧ s.readOperand p2 = .ok v2 ∧ f v1 v2 = .error k) ∨
        k = .memoryExhausted ∧ ∃ t, s.writeAddress p3 = .ok t ∧ beyondLimit s.memLimit t = true) ∧
      s.computeInto f p1 p2 p3 = s.faultedAfter 4 k) ∨
    (∃ v1 v2 t r, s.readOperand p1 = .ok v1 ∧ s.readOperand p2 = .ok v2 ∧ s.writeAddress p3 = .ok t ∧
      f v1 v2 = .ok r ∧ beyondLimit s.memLimit t = false ∧
      s.computeInto f p1 p2 p3 = { s with ip := s.ip + 4, mem := s.mem.write t r }) := by
  cases h1 : s.readOperand p1 with
  | error k =>
    have hk : s.firstFault [.read, .read, .write] [p1, p2, p3] = some k := by simp only [State.firstFault, h1]
    exact .inl ⟨k, .inl hk, State.computeInto_firstFault hk⟩
  | ok v1 =>
    cases h2 : s.readOperand p2 with
    | error k =>
      have hk : s.firstFault [.read, .read, .write] [p1, p2, p3] = some k := by simp only [State.firstFault, h1, h2]
      exact .inl ⟨k, .inl hk, State.computeInto_firstFault hk⟩
    | ok v2 =>
      cases h3 : s.writeAddress p3 with
      | error k =>
        have hk : s.firstFault [.read, .read, .write] [p1, p2, p3] = some k := by simp only [State.firstFault, h1, h2, h3]
        exact .inl ⟨k, .inl hk, State.computeInto_firstFault hk⟩
      | ok t =>
        cases hf : f v1 v2 with
        | error k => exact .inl ⟨k, .inr (.inl ⟨v1, v2, rfl, rfl, hf⟩), State.computeInto_effect_error h1 h2 h3 hf⟩
        | ok r =>
          cases hl : beyondLimit s.memLimit t with
          | true => exact .inl ⟨_, .inr (.inr ⟨rfl, t, rfl, hl⟩), State.computeInto_exhausted h1 h2 h3 hf hl⟩
          | false => exact .inr ⟨v1, v2, t, r, rfl, rfl, rfl, hf, hl, State.computeInto_ok h1 h2 h3 hf hl⟩

/-- Format F2, the jump not taken (R116). -/
theorem State.jumpWhen_untaken {test : Word → Bool} (h1 : s.readOperand p1 = .ok v1)
    (h2 : s.readOperand p2 = .ok v2) (ht : test v1 = false) :
    s.jumpWhen test p1 p2 = { s with ip := s.ip + 3 } := by
  simp only [State.jumpWhen, State.withTwoReads, State.readOperand_advance, h1, h2, ht]
  rfl

/-- Format F2, the jump taken (R160, R161). -/
theorem State.jumpWhen_taken {test : Word → Bool} (h1 : s.readOperand p1 = .ok v1)
    (h2 : s.readOperand p2 = .ok v2) (ht : test v1 = true) (hv : 0 ≤ v2.toInt) :
    s.jumpWhen test p1 p2 = { s with ip := v2.toInt.toNat } := by
  have hn : ¬ v2.toInt < 0 := by omega
  simp only [State.jumpWhen, State.withTwoReads, State.readOperand_advance, h1, h2, ht, State.jumpTo, if_neg hn, if_true]
  rfl

/-- Format F2, a taken jump to a negative target (R162). -/
theorem State.jumpWhen_negative {test : Word → Bool} (h1 : s.readOperand p1 = .ok v1)
    (h2 : s.readOperand p2 = .ok v2) (ht : test v1 = true) (hv : v2.toInt < 0) :
    s.jumpWhen test p1 p2 = s.faultedAfter 3 .invalidAddress := by
  simp only [State.jumpWhen, State.withTwoReads, State.readOperand_advance, h1, h2, ht, State.jumpTo, if_pos hv, if_true]
  rfl

/-- Format F2, the first resolution fault ends the step, taken or not (R117, R123). -/
theorem State.jumpWhen_firstFault {test : Word → Bool} (h : s.firstFault [.read, .read] [p1, p2] = some k) :
    s.jumpWhen test p1 p2 = s.faultedAfter 3 k := by
  simp only [State.firstFault] at h
  simp only [State.jumpWhen, State.withTwoReads, State.readOperand_advance]
  cases h1 : s.readOperand p1 with
  | error k1 => simp only [h1, Option.some.injEq] at h; subst h; rfl
  | ok v1 =>
    cases h2 : s.readOperand p2 with
    | error k2 => simp only [h1, h2, Option.some.injEq] at h; subst h; rfl
    | ok v2 => simp only [h1, h2, reduceCtorEq] at h

/-- Everything an instruction of format F2 can do: a fault of resolution or of a negative target, with nothing else done, or
set `ip`. -/
theorem State.jumpWhen_cases (s : State) (test : Word → Bool) (p1 p2 : Param) :
    (∃ k, (s.firstFault [.read, .read] [p1, p2] = some k ∨
        k = .invalidAddress ∧ ∃ v1 v2, s.readOperand p1 = .ok v1 ∧ s.readOperand p2 = .ok v2 ∧ test v1 = true ∧
          v2.toInt < 0) ∧
      s.jumpWhen test p1 p2 = s.faultedAfter 3 k) ∨
    (∃ t, s.jumpWhen test p1 p2 = { s with ip := t }) := by
  cases h1 : s.readOperand p1 with
  | error k =>
    have hk : s.firstFault [.read, .read] [p1, p2] = some k := by simp only [State.firstFault, h1]
    exact .inl ⟨k, .inl hk, State.jumpWhen_firstFault hk⟩
  | ok v1 =>
    cases h2 : s.readOperand p2 with
    | error k =>
      have hk : s.firstFault [.read, .read] [p1, p2] = some k := by simp only [State.firstFault, h1, h2]
      exact .inl ⟨k, .inl hk, State.jumpWhen_firstFault hk⟩
    | ok v2 =>
      cases ht : test v1 with
      | false => exact .inr ⟨_, State.jumpWhen_untaken h1 h2 ht⟩
      | true =>
        by_cases hv : v2.toInt < 0
        · exact .inl ⟨_, .inr ⟨rfl, v1, v2, rfl, rfl, ht, hv⟩, State.jumpWhen_negative h1 h2 ht hv⟩
        · exact .inr ⟨_, State.jumpWhen_taken h1 h2 ht (by omega)⟩

/-- Format F1 with a read parameter, resolved (R122). -/
theorem State.useOperand_ok {effect : Word → State → Except Fault State} (h1 : s.readOperand p1 = .ok v1) :
    s.useOperand effect p1 = (s.advance 2).finish s.ip (effect v1 (s.advance 2)) := by
  simp only [State.useOperand, State.readOperand_advance, h1]

/-- Format F1 with a read parameter, a resolution fault (R117). -/
theorem State.useOperand_error {effect : Word → State → Except Fault State} (h1 : s.readOperand p1 = .error k) :
    s.useOperand effect p1 = s.faultedAfter 2 k := by
  simp only [State.useOperand, State.readOperand_advance, h1]
  rfl

/-- Everything OUT can do. -/
theorem execOutput_cases (s : State) (p1 : Param) :
    (∃ k, s.readOperand p1 = .error k ∧ execOutput p1 s = .next (s.faultedAfter 2 k)) ∨
    (∃ v1, s.readOperand p1 = .ok v1 ∧
      execOutput p1 s = .next { s with ip := s.ip + 2, out := s.out ++ [v1] }) := by
  cases h1 : s.readOperand p1 with
  | error k => exact .inl ⟨k, rfl, by rw [execOutput, State.useOperand_error h1]⟩
  | ok v1 => exact .inr ⟨v1, rfl, by rw [execOutput, State.useOperand_ok h1]; rfl⟩

/-- Everything ARB can do. -/
theorem execArb_cases (s : State) (p1 : Param) :
    (∃ k, (s.readOperand p1 = .error k ∨
        k = .arithmeticOverflow ∧ ∃ v1, s.readOperand p1 = .ok v1 ∧ ¬ InWord (s.rb.toInt + v1.toInt)) ∧
      execArb p1 s = .next (s.faultedAfter 2 k)) ∨
    (∃ v1 r, s.readOperand p1 = .ok v1 ∧ r.toInt = s.rb.toInt + v1.toInt ∧
      execArb p1 s = .next { s with ip := s.ip + 2, rb := r }) := by
  cases h1 : s.readOperand p1 with
  | error k => exact .inl ⟨k, .inl rfl, by rw [execArb, State.useOperand_error h1]⟩
  | ok v1 =>
    rcases checkWord_cases (s.rb.toInt + v1.toInt) with ⟨r, hr, hc⟩ | ⟨hn, hc⟩
    · exact .inr ⟨v1, r, rfl, hr, by rw [execArb, State.useOperand_ok h1]; simp only [State.advance_rb, hc]; rfl⟩
    · exact .inl ⟨_, .inr ⟨rfl, v1, rfl, hn⟩, by
        rw [execArb, State.useOperand_ok h1]; simp only [State.advance_rb, hc]; rfl⟩

/-- Everything IN can do (R150): a target fault with no request, waiting, the `Unavailable` fault, the memory limit, or
one word stored. -/
theorem execInput_cases (s : State) (p1 : Param) :
    (∃ k, s.writeAddress p1 = .error k ∧ execInput p1 s = .next (s.faultedAfter 2 k)) ∨
    (∃ t, s.writeAddress p1 = .ok t ∧
      ((s.adapter.request s.cursor = .noAnswer ∧ execInput p1 s = .refused .awaitingInput) ∨
       (s.adapter.request s.cursor = .unavailable ∧
         execInput p1 s = .next { s.faultedAfter 2 .inputUnavailable with cursor := s.cursor + 1 }) ∨
       (∃ v, s.adapter.request s.cursor = .value v ∧ beyondLimit s.memLimit t = true ∧
         execInput p1 s = .next { s.faultedAfter 2 .memoryExhausted with cursor := s.cursor + 1 }) ∨
       (∃ v, s.adapter.request s.cursor = .value v ∧ beyondLimit s.memLimit t = false ∧
         execInput p1 s =
           .next { s with ip := s.ip + 2, cursor := s.cursor + 1, mem := s.mem.write t v }))) := by
  cases h1 : s.writeAddress p1 with
  | error k => exact .inl ⟨k, rfl, by simp only [execInput, State.writeAddress_advance, h1]; rfl⟩
  | ok t =>
    refine .inr ⟨t, rfl, ?_⟩
    have e : execInput p1 s = (s.advance 2).receiveInto s.ip t := by
      simp only [execInput, State.writeAddress_advance, h1]
    rw [e]
    cases hr : s.adapter.request s.cursor with
    | noAnswer => exact .inl ⟨rfl, by simp [State.receiveInto, hr]⟩
    | unavailable => exact .inr (.inl ⟨rfl, by simp [State.receiveInto, hr]; rfl⟩)
    | value v =>
      refine .inr (.inr ?_)
      cases hl : beyondLimit s.memLimit t with
      | true =>
        refine .inl ⟨v, rfl, rfl, ?_⟩
        simp only [State.receiveInto, State.advance_adapter, State.advance_cursor, hr]
        rw [State.memWrite_error (by simpa using hl)]
        rfl
      | false =>
        refine .inr ⟨v, rfl, rfl, ?_⟩
        simp only [State.receiveInto, State.advance_adapter, State.advance_cursor, hr]
        rw [State.memWrite_ok (by simpa using hl)]
        rfl

end

end Sys2Proof.Machine
end

