-- ==== Sys2Proof/Laws/Step.lean ====
section
/-! SUPPORT. What `exec` and `step` can do, said once: later proofs about every instruction or every step split on these
cases instead of unfolding the machine. -/

namespace Sys2Proof.Machine

/-- The parameter that names the cell an instruction stores a result to (R84, R121); IN stores an input instead. -/
def resultTarget : Instr → Option Param
  | .add _ _ p3 => some p3
  | .mul _ _ p3 => some p3
  | .lt _ _ p3 => some p3
  | .eq _ _ p3 => some p3
  | _ => none

/-- Everything that running the instruction `i` in `s` can answer as a next state. -/
inductive ExecNext (i : Instr) (s : State) : State → Prop where
  /-- A fault with nothing else done. -/
  | faulted (k : Fault) (hi : i ≠ .halt)
      (hk : IsResolutionFault k ∨ k = .memoryExhausted ∧ .write ∈ i.roles ∧ ∃ t, beyondLimit s.memLimit t = true) :
      ExecNext i s (s.faultedAfter i.length k)
  /-- A fault of IN after its request. -/
  | requested (p1 : Param) (k : Fault) (hi : i = .input p1)
      (hk : (k = .inputUnavailable ∧ s.adapter.request s.cursor = .unavailable) ∨
        (k = .memoryExhausted ∧ ∃ t, beyondLimit s.memLimit t = true)) :
      ExecNext i s { s.faultedAfter 2 k with cursor := s.cursor + 1 }
  /-- A result stored by ADD, MUL, LT or EQ. -/
  | stored (p3 : Param) (a : Nat) (r : Word) (hi : resultTarget i = some p3) (ha : s.writeAddress p3 = .ok a) :
      ExecNext i s { s with ip := s.ip + 4, mem := s.mem.write a r }
  /-- An input stored by IN. -/
  | received (p1 : Param) (a : Nat) (v : Word) (hi : i = .input p1) (ha : s.writeAddress p1 = .ok a)
      (hv : s.adapter.request s.cursor = .value v) :
      ExecNext i s { s with ip := s.ip + 2, cursor := s.cursor + 1, mem := s.mem.write a v }
  /-- A value appended to the Output Log by OUT. -/
  | emitted (p1 : Param) (v : Word) (hi : i = .output p1) (hv : s.readOperand p1 = .ok v) :
      ExecNext i s { s with ip := s.ip + 2, out := s.out ++ [v] }
  /-- A jump, taken or not. -/
  | jumped (p1 p2 : Param) (t : Nat) (hi : i = .jt p1 p2 ∨ i = .jf p1 p2) : ExecNext i s { s with ip := t }
  /-- The relative base adjusted by ARB. -/
  | rebased (p1 : Param) (r : Word) (hi : i = .arb p1) : ExecNext i s { s with ip := s.ip + 2, rb := r }
  /-- HALT. -/
  | halted (hi : i = .halt) : ExecNext i s { s with ip := s.ip + 1, run := .halted }

theorem execNext_computeInto {i : Instr} {s t : State} {f : Word → Word → Except Fault Word} {p1 p2 p3 : Param}
    (hi : resultTarget i = some p3) (hl : i.length = 4) (hh : i ≠ .halt) (hw : .write ∈ i.roles)
    (hf : ∀ v1 v2 k, f v1 v2 = .error k → k = .arithmeticOverflow)
    (h : Host.Outcome.next (φ := Fault) (ρ := Refusal) (s.computeInto f p1 p2 p3) = .next t) : ExecNext i s t := by
  injection h with h
  subst h
  rcases State.computeInto_cases s f p1 p2 p3 with ⟨k, hk, e⟩ | ⟨v1, v2, a, r, -, -, h3, -, -, e⟩ <;> rw [e]
  · rw [← hl]
    refine .faulted k hh ?_
    rcases hk with hk | ⟨v1, v2, -, -, hk⟩ | ⟨hk, a, -, ht⟩
    · exact .inl (State.firstFault_isResolutionFault hk)
    · exact .inl (.inr (hf v1 v2 k hk))
    · exact .inr ⟨hk, hw, a, ht⟩
  · exact .stored p3 a r hi h3

theorem checkWord_fault {x : Int} {k : Fault} (h : checkWord x = .error k) : k = .arithmeticOverflow := by
  rcases checkWord_cases x with ⟨r, -, e⟩ | ⟨-, e⟩ <;> rw [e] at h <;> simp_all

/-- A next state of `exec` is one of the listed effects. -/
theorem exec_next {i : Instr} {s t : State} (h : exec i s = .next t) : ExecNext i s t := by
  cases i with
  | add p1 p2 p3 =>
    exact execNext_computeInto rfl rfl (by simp) (by simp [Instr.roles]) (fun _ _ _ e => checkWord_fault e) h
  | mul p1 p2 p3 =>
    exact execNext_computeInto rfl rfl (by simp) (by simp [Instr.roles]) (fun _ _ _ e => checkWord_fault e) h
  | lt p1 p2 p3 => exact execNext_computeInto rfl rfl (by simp) (by simp [Instr.roles]) (by simp) h
  | eq p1 p2 p3 => exact execNext_computeInto rfl rfl (by simp) (by simp [Instr.roles]) (by simp) h
  | input p1 =>
    have h : execInput p1 s = .next t := h
    rcases execInput_cases s p1 with ⟨k, hk, e⟩ | ⟨a, ha, ⟨-, e⟩ | ⟨hu, e⟩ | ⟨v, -, hb, e⟩ | ⟨v, hv, -, e⟩⟩ <;>
      rw [e] at h <;> cases h
    · exact .faulted (i := .input p1) k (by simp) (.inl (State.writeAddress_error hk).isResolutionFault)
    · exact .requested p1 _ rfl (.inl ⟨rfl, hu⟩)
    · exact .requested p1 _ rfl (.inr ⟨rfl, a, hb⟩)
    · exact .received p1 a v rfl ha hv
  | output p1 =>
    have h : execOutput p1 s = .next t := h
    rcases execOutput_cases s p1 with ⟨k, hk, e⟩ | ⟨v, hv, e⟩ <;> rw [e] at h <;> injection h with h <;> subst h
    · exact .faulted (i := .output p1) k (by simp) (.inl (State.readOperand_error hk .read).isResolutionFault)
    · exact .emitted p1 v rfl hv
  | jt p1 p2 =>
    injection h with h
    subst h
    rcases State.jumpWhen_cases s wordIsTrue p1 p2 with ⟨k, hk, e⟩ | ⟨a, e⟩ <;> rw [e]
    · exact .faulted (i := .jt p1 p2) k (by simp) (.inl (hk.elim State.firstFault_isResolutionFault fun h => .inl h.1))
    · exact .jumped p1 p2 a (.inl rfl)
  | jf p1 p2 =>
    injection h with h
    subst h
    rcases State.jumpWhen_cases s wordIsFalse p1 p2 with ⟨k, hk, e⟩ | ⟨a, e⟩ <;> rw [e]
    · exact .faulted (i := .jf p1 p2) k (by simp) (.inl (hk.elim State.firstFault_isResolutionFault fun h => .inl h.1))
    · exact .jumped p1 p2 a (.inr rfl)
  | arb p1 =>
    have h : execArb p1 s = .next t := h
    rcases execArb_cases s p1 with ⟨k, hk, e⟩ | ⟨v, r, -, -, e⟩ <;> rw [e] at h <;> injection h with h <;> subst h
    · exact .faulted (i := .arb p1) k (by simp)
        (.inl (hk.elim (fun h => (State.readOperand_error h .read).isResolutionFault) fun h => .inr h.1))
    · exact .rebased p1 r rfl
  | halt =>
    injection h with h
    subst h
    exact .halted rfl

/-- `exec` refuses only an IN whose request is not answered (R125), and never answers a fault: a fault is recorded in the
next state (R120). -/
theorem exec_stops {i : Instr} {s : State} :
    (∃ t, exec i s = .next t) ∨
    (∃ p1, i = .input p1 ∧ s.adapter.request s.cursor = .noAnswer ∧ exec i s = .refused .awaitingInput) := by
  cases i with
  | input p1 =>
    rcases execInput_cases s p1 with ⟨k, -, e⟩ | ⟨a, ha, ⟨hn, e⟩ | ⟨-, e⟩ | ⟨v, -, hb, e⟩ | ⟨v, hv, -, e⟩⟩
    · exact .inl ⟨_, e⟩
    · exact .inr ⟨p1, rfl, hn, e⟩
    · exact .inl ⟨_, e⟩
    · exact .inl ⟨_, e⟩
    · exact .inl ⟨_, e⟩
  | _ => exact .inl ⟨_, rfl⟩

theorem noStepBecause_inProgress {s : State} (h : s.InProgress) : s.noStepBecause = none := by
  obtain ⟨hr, hf⟩ := h
  simp only [State.noStepBecause, hr, hf]

/-- The step of an instance in progress, when its words decode. -/
theorem step_decoded {s : State} {i : Instr} (h : s.InProgress) (hd : decode s.fetchWords = .ok i) :
    step s = completeStep (exec i s) := by
  simp only [step, noStepBecause_inProgress h, hd]

/-- The step of an instance in progress, when its words do not decode (R113, R114). -/
theorem step_undecoded {s : State} {e : DecodeFault} (h : s.InProgress) (hd : decode s.fetchWords = .error e) :
    step s = .next (s.raise (faultOfDecode e) s.ip).afterStep := by
  simp only [step, noStepBecause_inProgress h, hd]
  rfl

/-- Everything a step that completes can be. -/
theorem step_next {s t : State} (h : step s = .next t) :
    s.InProgress ∧
    ((∃ e, decode s.fetchWords = .error e ∧ t = (s.raise (faultOfDecode e) s.ip).afterStep) ∨
     (∃ i u, decode s.fetchWords = .ok i ∧ exec i s = .next u ∧ ExecNext i s u ∧ t = u.afterStep)) := by
  have hp : s.InProgress := by
    unfold step at h
    cases hn : s.noStepBecause with
    | some r =>
      simp only [hn] at h
      subst h
      unfold State.noStepBecause at hn
      repeat' split at hn
      all_goals simp at hn
    | none =>
      unfold State.noStepBecause at hn
      repeat' split at hn
      all_goals first | exact ⟨by assumption, by assumption⟩ | simp at hn
  refine ⟨hp, ?_⟩
  cases hd : decode s.fetchWords with
  | error e =>
    rw [step_undecoded hp hd] at h
    injection h with h
    exact .inl ⟨e, rfl, h.symm⟩
  | ok i =>
    rw [step_decoded hp hd] at h
    rcases exec_stops (i := i) (s := s) with ⟨u, hu⟩ | ⟨-, -, -, hu⟩
    · rw [hu] at h
      injection h with h
      exact .inr ⟨i, u, rfl, hu, exec_next hu, h.symm⟩
    · rw [hu] at h
      exact absurd h (by simp [completeStep])

section
variable (s : State)

/-- The controller's check touches only the Run State and its own mark. -/
theorem State.afterStep_eq : ∃ r n, s.afterStep = { s with run := r, nextOutputFrom := n } := by
  unfold State.afterStep
  split
  · exact ⟨_, _, rfl⟩
  · exact ⟨_, _, rfl⟩
  · split
    · exact ⟨_, _, rfl⟩
    · exact ⟨_, _, rfl⟩

@[simp] theorem State.afterStep_mem : s.afterStep.mem = s.mem := by
  obtain ⟨r, n, h⟩ := s.afterStep_eq
  rw [h]
@[simp] theorem State.afterStep_ip : s.afterStep.ip = s.ip := by
  obtain ⟨r, n, h⟩ := s.afterStep_eq
  rw [h]
@[simp] theorem State.afterStep_rb : s.afterStep.rb = s.rb := by
  obtain ⟨r, n, h⟩ := s.afterStep_eq
  rw [h]
@[simp] theorem State.afterStep_out : s.afterStep.out = s.out := by
  obtain ⟨r, n, h⟩ := s.afterStep_eq
  rw [h]
@[simp] theorem State.afterStep_cursor : s.afterStep.cursor = s.cursor := by
  obtain ⟨r, n, h⟩ := s.afterStep_eq
  rw [h]
@[simp] theorem State.afterStep_fault : s.afterStep.fault = s.fault := by
  obtain ⟨r, n, h⟩ := s.afterStep_eq
  rw [h]
@[simp] theorem State.afterStep_adapter : s.afterStep.adapter = s.adapter := by
  obtain ⟨r, n, h⟩ := s.afterStep_eq
  rw [h]
@[simp] theorem State.afterStep_memLimit : s.afterStep.memLimit = s.memLimit := by
  obtain ⟨r, n, h⟩ := s.afterStep_eq
  rw [h]

variable {s}

/-- A recorded fault ends the call and leaves `run` alone (R120). -/
theorem State.afterStep_faulted (h : s.fault ≠ none) : s.afterStep = { s with nextOutputFrom := none } := by
  cases hf : s.fault with
  | none => exact absurd hf h
  | some r => simp only [State.afterStep, State.stepResult, hf]

/-- A halt ends the call. -/
theorem State.afterStep_halted (hf : s.fault = none) (h : s.run = .halted) :
    s.afterStep = { s with nextOutputFrom := none } := by
  simp only [State.afterStep, State.stepResult, hf, h]

/-- An output in `run_to_next_output` pauses the instance (R209). -/
theorem State.afterStep_paused (hf : s.fault = none) (h : s.run = .running) (hg : s.outputGrew = true) :
    s.afterStep = { s with run := .paused, nextOutputFrom := none } := by
  simp only [State.afterStep, State.stepResult, hf, h, hg, if_true]

/-- Any other step leaves the call in progress. -/
theorem State.afterStep_going (hf : s.fault = none) (h : s.run = .running) (hg : s.outputGrew = false) :
    s.afterStep = s := by
  simp [State.afterStep, State.stepResult, hf, h, hg]

end

end Sys2Proof.Machine
end

