-- ==== Sys2Proof/Laws/Control.lean ====
section
/-! SUPPORT. The laws of the controller around the step: what the check after a step does to `run`, and that a step looks
at the adapter only through its answer to the current ordinal. -/

namespace Sys2Proof.Machine

/-- The check after a step changes `run` only to pause an instance whose log grew (R210). -/
theorem State.afterStep_run (u : State) :
    u.afterStep.run = u.run ∨
    (u.afterStep.run = .paused ∧ u.fault = none ∧ u.outputGrew = true ∧ u.run ≠ .halted) := by
  cases hf : u.fault with
  | some r =>
    left
    rw [State.afterStep_faulted (by simp [hf])]
  | none =>
    by_cases hh : u.run = .halted
    · left
      rw [State.afterStep_halted hf hh]
    · unfold State.afterStep State.stepResult
      rw [hf]
      simp only
      cases hg : u.outputGrew <;> cases hr : u.run <;> simp_all

/-- The parameter a result is stored through is a write parameter. -/
theorem write_mem_roles {i : Instr} {p : Param} (h : resultTarget i = some p) : Role.write ∈ i.roles := by
  cases i <;> simp_all [resultTarget, Instr.roles]

/-- `s` with another adapter and another mark of the controller: what a step must not look at. -/
def State.rewire (src : Adapter) (mark : Option Nat) (s : State) : State :=
  { s with adapter := src, nextOutputFrom := mark }

section
variable (s : State) (src : Adapter) (mark : Option Nat)

@[simp] theorem State.rewire_mem : (s.rewire src mark).mem = s.mem := rfl
@[simp] theorem State.rewire_ip : (s.rewire src mark).ip = s.ip := rfl
@[simp] theorem State.rewire_rb : (s.rewire src mark).rb = s.rb := rfl
@[simp] theorem State.rewire_run : (s.rewire src mark).run = s.run := rfl
@[simp] theorem State.rewire_out : (s.rewire src mark).out = s.out := rfl
@[simp] theorem State.rewire_cursor : (s.rewire src mark).cursor = s.cursor := rfl
@[simp] theorem State.rewire_fault : (s.rewire src mark).fault = s.fault := rfl
@[simp] theorem State.rewire_adapter : (s.rewire src mark).adapter = src := rfl
@[simp] theorem State.rewire_nextOutputFrom : (s.rewire src mark).nextOutputFrom = mark := rfl
@[simp] theorem State.rewire_memLimit : (s.rewire src mark).memLimit = s.memLimit := rfl

@[simp] theorem State.readOperand_rewire (p : Param) : (s.rewire src mark).readOperand p = s.readOperand p :=
  State.readOperand_congr rfl rfl p

@[simp] theorem State.writeAddress_rewire (p : Param) : (s.rewire src mark).writeAddress p = s.writeAddress p :=
  State.writeAddress_congr rfl p

theorem State.advance_rewire (n : Nat) : (s.rewire src mark).advance n = (s.advance n).rewire src mark := rfl

theorem State.memWrite_rewire (a : Nat) (v : Word) :
    (s.rewire src mark).memWrite a v = (s.memWrite a v).map (State.rewire src mark) := by
  cases h : beyondLimit s.memLimit a with
  | true => rw [State.memWrite_error h, State.memWrite_error (by simpa using h)]; rfl
  | false => rw [State.memWrite_ok h, State.memWrite_ok (by simpa using h)]; rfl

theorem State.finish_rewire (a : Nat) (r : Except Fault State) :
    (s.rewire src mark).finish a (r.map (State.rewire src mark)) = (s.finish a r).rewire src mark := by
  cases r <;> rfl

theorem State.computeInto_rewire (f : Word → Word → Except Fault Word) (p1 p2 p3 : Param) :
    (s.rewire src mark).computeInto f p1 p2 p3 = (s.computeInto f p1 p2 p3).rewire src mark := by
  simp only [State.computeInto, State.withTwoReads, State.readOperand_advance, State.writeAddress_advance,
    State.readOperand_rewire, State.writeAddress_rewire]
  cases s.readOperand p1 with
  | error k => rfl
  | ok v1 =>
    cases s.readOperand p2 with
    | error k => rfl
    | ok v2 =>
      cases s.writeAddress p3 with
      | error k => rfl
      | ok t =>
        cases hf : f v1 v2 with
        | error k => simp only [hf]; rfl
        | ok r =>
          simp only [hf, State.advance_rewire, State.memWrite_rewire]
          exact State.finish_rewire _ _ _ _ _

theorem State.jumpWhen_rewire (test : Word → Bool) (p1 p2 : Param) :
    (s.rewire src mark).jumpWhen test p1 p2 = (s.jumpWhen test p1 p2).rewire src mark := by
  simp only [State.jumpWhen, State.withTwoReads, State.readOperand_advance, State.readOperand_rewire]
  cases s.readOperand p1 with
  | error k => rfl
  | ok v1 =>
    cases s.readOperand p2 with
    | error k => rfl
    | ok v2 =>
      cases ht : test v1 with
      | false => simp only [ht]; rfl
      | true =>
        simp only [ht, if_true, State.jumpTo]
        by_cases hv : v2.toInt < 0
        · simp only [if_pos hv]; rfl
        · simp only [if_neg hv]; rfl

variable {src mark}

/-- An instruction looks at the adapter only through its answer to the current ordinal (R124), and not at the mark. -/
theorem exec_rewire (i : Instr) (h : src.request s.cursor = s.adapter.request s.cursor) :
    exec i (s.rewire src mark) =
      match exec i s with
      | .next t => .next (t.rewire src mark)
      | .fault k => .fault k
      | .refused q => .refused q := by
  cases i with
  | add p1 p2 p3 => exact congrArg Host.Outcome.next (State.computeInto_rewire s src mark _ p1 p2 p3)
  | mul p1 p2 p3 => exact congrArg Host.Outcome.next (State.computeInto_rewire s src mark _ p1 p2 p3)
  | lt p1 p2 p3 => exact congrArg Host.Outcome.next (State.computeInto_rewire s src mark _ p1 p2 p3)
  | eq p1 p2 p3 => exact congrArg Host.Outcome.next (State.computeInto_rewire s src mark _ p1 p2 p3)
  | jt p1 p2 => exact congrArg Host.Outcome.next (State.jumpWhen_rewire s src mark _ p1 p2)
  | jf p1 p2 => exact congrArg Host.Outcome.next (State.jumpWhen_rewire s src mark _ p1 p2)
  | halt => rfl
  | output p1 =>
    simp only [exec, execOutput, State.useOperand, State.readOperand_advance, State.readOperand_rewire]
    cases s.readOperand p1 <;> rfl
  | arb p1 =>
    simp only [exec, execArb, State.useOperand, State.readOperand_advance, State.readOperand_rewire]
    cases s.readOperand p1 with
    | error k => rfl
    | ok v1 =>
      simp only [State.advance_rb, State.rewire_rb]
      cases checkWord (s.rb.toInt + v1.toInt) <;> rfl
  | input p1 =>
    simp only [exec, execInput, State.writeAddress_advance, State.writeAddress_rewire]
    cases s.writeAddress p1 with
    | error k => rfl
    | ok t =>
      simp only [State.receiveInto, State.advance_adapter, State.advance_cursor, State.rewire_adapter,
        State.rewire_cursor, h]
      cases s.adapter.request s.cursor with
      | noAnswer => rfl
      | unavailable => rfl
      | value v =>
        have e : ((s.rewire src mark).advance 2).countRequest = ((s.advance 2).countRequest).rewire src mark := rfl
        simp only [e, State.memWrite_rewire]
        exact congrArg Host.Outcome.next (State.finish_rewire _ _ _ _ _)

theorem State.afterStep_bindAdapter (t : State) : (t.bindAdapter src).afterStep = t.afterStep.bindAdapter src := by
  have e : (t.bindAdapter src).outputGrew = t.outputGrew := rfl
  unfold State.afterStep
  rw [e]
  have e2 : (t.bindAdapter src).stepResult = t.stepResult := rfl
  rw [e2]
  cases t.stepResult with
  | faults k => rfl
  | halts => rfl
  | continues => cases t.outputGrew <;> rfl

/-- No instruction touches the controller's mark. -/
theorem exec_mark {i : Instr} {s t : State} (h : exec i s = .next t) : t.nextOutputFrom = s.nextOutputFrom := by
  cases exec_next h <;> rfl

/-- A step looks at the adapter only through its answer to the current ordinal (R124). -/
theorem step_bindAdapter (h : src.request s.cursor = s.adapter.request s.cursor) :
    step (s.bindAdapter src) =
      match step s with
      | .next t => .next (t.bindAdapter src)
      | .fault k => .fault k
      | .refused q => .refused q := by
  have e1 : (s.bindAdapter src).noStepBecause = s.noStepBecause := rfl
  have e2 : (s.bindAdapter src).fetchWords = s.fetchWords := rfl
  unfold step
  rw [e1, e2]
  cases hn : s.noStepBecause with
  | some r =>
    unfold State.noStepBecause at hn
    repeat' split at hn
    all_goals first | (injection hn with hn; subst hn; rfl) | simp at hn
  | none =>
    cases decode s.fetchWords with
    | error e => exact congrArg Host.Outcome.next (State.afterStep_bindAdapter (s.raise (faultOfDecode e) s.ip))
    | ok i =>
      have hx := exec_rewire (mark := s.nextOutputFrom) s i h
      have e3 : s.rewire src s.nextOutputFrom = s.bindAdapter src := rfl
      rw [e3] at hx
      simp only [hx]
      cases he : exec i s with
      | next t =>
        have ht : t.nextOutputFrom = s.nextOutputFrom := exec_mark he
        have e4 : t.rewire src s.nextOutputFrom = t.bindAdapter src := by rw [← ht]; rfl
        simp only [e4]
        exact congrArg Host.Outcome.next (State.afterStep_bindAdapter t)
      | fault k => rfl
      | refused q => rfl

end

end Sys2Proof.Machine
end

