-- ==== Sys2Proof/Laws/Decode.lean ====
section
/-! SUPPORT. The laws of the decoder: decimal digits of a positive word, mode digits, and which decoder each opcode
selects. -/

namespace Sys2Proof

/-- A word with a supported opcode is positive, and its opcode field is an ordinary remainder (R89). -/
theorem opcodeField_pos {w : Word} (h : 0 < opcodeField w) : 0 < w.toInt ∧ opcodeField w = w.toInt % 100 := by
  unfold opcodeField at h ⊢
  by_cases hw : 0 ≤ w.toInt
  · rw [Int.tmod_eq_emod_of_nonneg hw] at h ⊢
    exact ⟨by omega, rfl⟩
  · have hn : (-w.toInt).tmod 100 = -(w.toInt.tmod 100) := Int.neg_tmod _ _
    rw [Int.tmod_eq_emod_of_nonneg (by omega)] at hn
    omega

/-- A digit of a word that is not negative (R9). -/
theorem digit_of_nonneg {w : Word} (h : 0 ≤ w.toInt) (k : Nat) : digit w k = w.toInt / 10 ^ k % 10 := by
  unfold digit
  rw [Int.tdiv_eq_ediv_of_nonneg h, Int.tmod_eq_emod_of_nonneg (Int.ediv_nonneg h (by positivity))]

/-- A digit stands for the mode whose digit it is, and for no other (R55, R87). -/
theorem modeOfDigit_eq_some {d : Int} {m : Mode} : modeOfDigit d = some m ↔ d = m.digit := by
  unfold modeOfDigit
  constructor
  · intro h
    repeat' split at h
    all_goals first | (injection h with h; subst h; assumption) | simp at h
  · intro h
    subst h
    cases m <;> rfl

theorem modeOfDigit_eq_none {d : Int} : modeOfDigit d = none ↔ d ≠ 0 ∧ d ≠ 1 ∧ d ≠ 2 := by
  unfold modeOfDigit
  repeat' split
  all_goals simp_all

theorem modeOf_eq_ok {w : Word} {i : Nat} {m : Mode} : modeOf w i = .ok m ↔ digit w (i + 1) = m.digit := by
  rw [← modeOfDigit_eq_some]
  unfold modeOf
  cases modeOfDigit (digit w (i + 1)) <;> simp

theorem modeOf_eq_error {w : Word} {i : Nat} {e : DecodeFault} :
    modeOf w i = .error e ↔ e = .malformedParameter ∧ modeOfDigit (digit w (i + 1)) = none := by
  unfold modeOf
  cases modeOfDigit (digit w (i + 1)) <;> simp [eq_comm]

/-- The decoder looks at four words (R80). -/
theorem decode_congr {a b : List Word} (h : ∀ j < 4, rawWord a j = rawWord b j) : decode a = decode b := by
  unfold decode decodeF1 decodeF2 decodeF3
  simp only [h 0 (by omega), h 1 (by omega), h 2 (by omega), h 3 (by omega)]

section
variable {ws : List Word}

theorem decode_add (h : opcodeField (rawWord ws 0) = 1) : decode ws = decodeF3 .add ws := by simp [decode, h]
theorem decode_mul (h : opcodeField (rawWord ws 0) = 2) : decode ws = decodeF3 .mul ws := by simp [decode, h]
theorem decode_input (h : opcodeField (rawWord ws 0) = 3) : decode ws = decodeF1 .input ws := by simp [decode, h]
theorem decode_output (h : opcodeField (rawWord ws 0) = 4) : decode ws = decodeF1 .output ws := by simp [decode, h]
theorem decode_jt (h : opcodeField (rawWord ws 0) = 5) : decode ws = decodeF2 .jt ws := by simp [decode, h]
theorem decode_jf (h : opcodeField (rawWord ws 0) = 6) : decode ws = decodeF2 .jf ws := by simp [decode, h]
theorem decode_lt (h : opcodeField (rawWord ws 0) = 7) : decode ws = decodeF3 .lt ws := by simp [decode, h]
theorem decode_eq (h : opcodeField (rawWord ws 0) = 8) : decode ws = decodeF3 .eq ws := by simp [decode, h]
theorem decode_arb (h : opcodeField (rawWord ws 0) = 9) : decode ws = decodeF1 .arb ws := by simp [decode, h]
theorem decode_halt (h : opcodeField (rawWord ws 0) = 99) : decode ws = .ok .halt := by simp [decode, h]

/-- The ten opcodes, one case each, and the rest (R83, R90). -/
theorem opcode_cases (op : Int) :
    op = 1 ∨ op = 2 ∨ op = 3 ∨ op = 4 ∨ op = 5 ∨ op = 6 ∨ op = 7 ∨ op = 8 ∨ op = 9 ∨ op = 99 ∨
    op ∉ ([1, 2, 3, 4, 5, 6, 7, 8, 9, 99] : List Int) := by
  simp only [List.mem_cons, List.not_mem_nil, or_false]
  omega

theorem decode_unknown (h : opcodeField (rawWord ws 0) ∉ ([1, 2, 3, 4, 5, 6, 7, 8, 9, 99] : List Int)) :
    decode ws = .error .unknownOpcode := by
  simp only [List.mem_cons, List.not_mem_nil, or_false, not_or] at h
  simp [decode, h]

theorem decodeF1_eq_ok {mk : Param → Instr} {i : Instr} :
    decodeF1 mk ws = .ok i ↔
      ∃ m1 : Mode, digit (rawWord ws 0) 2 = m1.digit ∧ mk ⟨m1, rawWord ws 1⟩ = i := by
  have key : decodeF1 mk ws = .ok i ↔
      ∃ m1 : Mode, modeOf (rawWord ws 0) 1 = .ok m1 ∧ mk ⟨m1, rawWord ws 1⟩ = i := by
    unfold decodeF1
    cases modeOf (rawWord ws 0) 1 <;> simp
  simpa only [modeOf_eq_ok] using key

theorem decodeF2_eq_ok {mk : Param → Param → Instr} {i : Instr} :
    decodeF2 mk ws = .ok i ↔
      ∃ m1 m2 : Mode, digit (rawWord ws 0) 2 = m1.digit ∧ digit (rawWord ws 0) 3 = m2.digit ∧
        mk ⟨m1, rawWord ws 1⟩ ⟨m2, rawWord ws 2⟩ = i := by
  have key : decodeF2 mk ws = .ok i ↔
      ∃ m1 m2 : Mode, modeOf (rawWord ws 0) 1 = .ok m1 ∧ modeOf (rawWord ws 0) 2 = .ok m2 ∧
        mk ⟨m1, rawWord ws 1⟩ ⟨m2, rawWord ws 2⟩ = i := by
    unfold decodeF2
    cases modeOf (rawWord ws 0) 1 <;> cases modeOf (rawWord ws 0) 2 <;> simp
  simpa only [modeOf_eq_ok] using key

theorem decodeF3_eq_ok {mk : Param → Param → Param → Instr} {i : Instr} :
    decodeF3 mk ws = .ok i ↔
      ∃ m1 m2 m3 : Mode, digit (rawWord ws 0) 2 = m1.digit ∧ digit (rawWord ws 0) 3 = m2.digit ∧
        digit (rawWord ws 0) 4 = m3.digit ∧
        mk ⟨m1, rawWord ws 1⟩ ⟨m2, rawWord ws 2⟩ ⟨m3, rawWord ws 3⟩ = i := by
  have key : decodeF3 mk ws = .ok i ↔
      ∃ m1 m2 m3 : Mode, modeOf (rawWord ws 0) 1 = .ok m1 ∧ modeOf (rawWord ws 0) 2 = .ok m2 ∧
        modeOf (rawWord ws 0) 3 = .ok m3 ∧
        mk ⟨m1, rawWord ws 1⟩ ⟨m2, rawWord ws 2⟩ ⟨m3, rawWord ws 3⟩ = i := by
    unfold decodeF3
    cases modeOf (rawWord ws 0) 1 <;> cases modeOf (rawWord ws 0) 2 <;> cases modeOf (rawWord ws 0) 3 <;> simp
  simpa only [modeOf_eq_ok] using key

theorem decodeF1_eq_error {mk : Param → Instr} {e : DecodeFault} :
    decodeF1 mk ws = .error e ↔ e = .malformedParameter ∧ modeOfDigit (digit (rawWord ws 0) 2) = none := by
  unfold decodeF1 modeOf
  cases modeOfDigit (digit (rawWord ws 0) (1 + 1)) <;> simp [eq_comm]

theorem decodeF2_eq_error {mk : Param → Param → Instr} {e : DecodeFault} :
    decodeF2 mk ws = .error e ↔ e = .malformedParameter ∧
      (modeOfDigit (digit (rawWord ws 0) 2) = none ∨ modeOfDigit (digit (rawWord ws 0) 3) = none) := by
  unfold decodeF2 modeOf
  cases modeOfDigit (digit (rawWord ws 0) (1 + 1)) <;> cases modeOfDigit (digit (rawWord ws 0) (2 + 1)) <;>
    simp [eq_comm]

theorem decodeF3_eq_error {mk : Param → Param → Param → Instr} {e : DecodeFault} :
    decodeF3 mk ws = .error e ↔ e = .malformedParameter ∧
      (modeOfDigit (digit (rawWord ws 0) 2) = none ∨ modeOfDigit (digit (rawWord ws 0) 3) = none ∨
        modeOfDigit (digit (rawWord ws 0) 4) = none) := by
  unfold decodeF3 modeOf
  cases modeOfDigit (digit (rawWord ws 0) (1 + 1)) <;> cases modeOfDigit (digit (rawWord ws 0) (2 + 1)) <;>
    cases modeOfDigit (digit (rawWord ws 0) (3 + 1)) <;> simp [eq_comm]

end

end Sys2Proof
end

