-- ==== Sys2Proof/Laws/Host.lean ====
section
/-! SUPPORT. The laws of the host's side: what an instruction does to the Run State and the Output Log, what one step does
inside `run_to_next_output`, and what the loader's pieces compute. -/

namespace Sys2Proof.Machine

/-- An instruction records a fault, or halts with the log as it was, or keeps the Run State and appends at most one value. -/
theorem exec_runAndOutput {i : Instr} {s u : State} (h : exec i s = .next u) :
    u.fault ≠ none ∨
    (u.fault = s.fault ∧ ((u.run = .halted ∧ u.out = s.out) ∨
      (u.run = s.run ∧ (u.out = s.out ∨ ∃ v, u.out = s.out ++ [v])))) := by
  cases exec_next h with
  | faulted => left; simp
  | requested => left; simp
  | stored => right; simp
  | received => right; simp
  | emitted => right; simp
  | jumped => right; simp
  | rebased => right; simp
  | halted => right; simp

/-- A step inside `run_to_next_output` faults, halts, pauses on one new output, or goes on (R209). -/
theorem step_inNextOutput {s t : State} (hr : s.run = .running) (hf : s.fault = none)
    (hm : s.nextOutputFrom = some s.out.length) (h : step s = .next t) :
    t.fault ≠ none ∨ (t.fault = none ∧ t.run = .halted ∧ t.out = s.out) ∨
    (t.fault = none ∧ t.run = .paused ∧ ∃ v, t.out = s.out ++ [v]) ∨
    (t.fault = none ∧ t.run = .running ∧ t.out = s.out ∧ t.nextOutputFrom = some t.out.length) := by
  obtain ⟨-, ⟨e, hd, rfl⟩ | ⟨i, u, hd, hu, hx, rfl⟩⟩ := step_next h
  · left; simp
  · have hk := exec_mark hu
    rcases exec_runAndOutput hu with h1 | ⟨h0, ⟨h1, h2⟩ | ⟨h1, h2 | ⟨v, h2⟩⟩⟩
    · left; simpa using h1
    · right; left
      rw [State.afterStep_halted (by rw [h0, hf]) h1]
      simp [h0, hf, h1, h2]
    · right; right; right
      rw [State.afterStep_going (by rw [h0, hf]) (by rw [h1, hr]) (by simp [State.outputGrew, hk, hm, h2])]
      simp [h0, hf, h1, h2, hr, hk, hm]
    · right; right; left
      rw [State.afterStep_paused (by rw [h0, hf]) (by rw [h1, hr]) (by simp [State.outputGrew, hk, hm, h2])]
      simp [h0, hf, h2]

/-- What `digitsValue` computes: the decimal value of a list of digits, and nothing for any other list (R201). -/
theorem digitsValue_eq_some (ds : List Char) : ∀ acc n : Nat, digitsValue acc ds = some n ↔
    (∀ c ∈ ds, '0' ≤ c ∧ c ≤ '9') ∧ n = ds.foldl (fun acc c => acc * 10 + (c.toNat - '0'.toNat)) acc := by
  induction ds with
  | nil => intro acc n; simp [digitsValue, eq_comm]
  | cons c cs ih =>
    intro acc n
    have hc : ('0' ≤ c ∧ c ≤ '9') ↔ (48 ≤ c.toNat ∧ c.toNat ≤ 57) := Iff.rfl
    have hz : '0'.toNat = 48 := rfl
    by_cases h : 48 ≤ c.toNat ∧ c.toNat ≤ 57
    · have e : digitsValue acc (c :: cs) = digitsValue (acc * 10 + (c.toNat - 48)) cs := by
        simp only [digitsValue, decimalDigit, if_pos h]
      rw [e, ih]
      simp only [List.mem_cons, forall_eq_or_imp, List.foldl_cons]
      rw [hc]
      simp [h, hz]
    · have e : digitsValue acc (c :: cs) = none := by
        simp only [digitsValue, decimalDigit, if_neg h]
      rw [e]
      simp only [List.mem_cons, forall_eq_or_imp]
      rw [hc]
      simp [h]

/-- `tokenWords` fails exactly at an invalid token, and otherwise gives the token's words in order (R202). -/
theorem tokenWords_spec (ps : List (List Char)) :
    (tokenWords ps = none ↔ ∃ p ∈ ps, tokenWord p = none) ∧
    ∀ ws, tokenWords ps = some ws → ps.map tokenWord = ws.map some := by
  induction ps with
  | nil => simp [tokenWords]
  | cons p ps ih =>
    cases h : tokenWord p with
    | none => simp [tokenWords, h]
    | some w =>
      cases h2 : tokenWords ps with
      | none =>
        simp only [h2] at ih
        simp [tokenWords, h, h2]
        simpa using ih.1
      | some ws =>
        simp only [h2] at ih
        simp only [tokenWords, h, h2]
        refine ⟨?_, ?_⟩
        · have := ih.1
          simp at this
          simpa [h] using this
        · simpa [h] using ih.2

/-- A value sent on an open channel is its last answer (R221). -/
@[simp] theorem Adapter.send_open (v : Word) (answers : List Word) :
    Adapter.send v { answers := answers, after := .noAnswer } = { answers := answers ++ [v], after := .noAnswer } := rfl

end Sys2Proof.Machine
end

