-- ==== Sys2Proof/Laws/PerInstr.lean ====
section
/-! SUPPORT. The layout of every instruction, one lemma per constructor: as many words and roles as its arity says, and the
arity of its opcode (spec/30_encoding.md R80, R82, R83). -/

namespace Sys2Proof.Laws.Layout

/-- The encoding has one word more than the arity, which is the opcode's and at most 3; and every parameter has a role. -/
def Statement (i : Instr) : Prop :=
  (encode i).length = i.length ∧ i.length = i.arity + 1 ∧ i.arity ≤ 3 ∧ i.roles.length = i.arity ∧
  arityOf i.opcode = some i.arity

theorem add (p1 p2 p3 : Param) : Statement (.add p1 p2 p3) :=
  ⟨rfl, rfl, by simp [Instr.arity, Instr.params], rfl, rfl⟩

theorem mul (p1 p2 p3 : Param) : Statement (.mul p1 p2 p3) :=
  ⟨rfl, rfl, by simp [Instr.arity, Instr.params], rfl, rfl⟩

theorem input (p1 : Param) : Statement (.input p1) :=
  ⟨rfl, rfl, by simp [Instr.arity, Instr.params], rfl, rfl⟩

theorem output (p1 : Param) : Statement (.output p1) :=
  ⟨rfl, rfl, by simp [Instr.arity, Instr.params], rfl, rfl⟩

theorem jt (p1 p2 : Param) : Statement (.jt p1 p2) :=
  ⟨rfl, rfl, by simp [Instr.arity, Instr.params], rfl, rfl⟩

theorem jf (p1 p2 : Param) : Statement (.jf p1 p2) :=
  ⟨rfl, rfl, by simp [Instr.arity, Instr.params], rfl, rfl⟩

theorem lt (p1 p2 p3 : Param) : Statement (.lt p1 p2 p3) :=
  ⟨rfl, rfl, by simp [Instr.arity, Instr.params], rfl, rfl⟩

theorem eq (p1 p2 p3 : Param) : Statement (.eq p1 p2 p3) :=
  ⟨rfl, rfl, by simp [Instr.arity, Instr.params], rfl, rfl⟩

theorem arb (p1 : Param) : Statement (.arb p1) :=
  ⟨rfl, rfl, by simp [Instr.arity, Instr.params], rfl, rfl⟩

theorem halt : Statement .halt :=
  ⟨rfl, rfl, by simp [Instr.arity, Instr.params], rfl, rfl⟩

end Sys2Proof.Laws.Layout
end

