-- ==== Sys2Proof/Machine/Assembler.lean ====
section
/-! DEFINITION. The spec's own assembler notation (spec/30_encoding.md R94, R95): how an instruction is written, and the
words that a listing assembles to. It has no normative weight: the encoding is the program (the spec's decision D22). -/

namespace Sys2Proof.Machine

/-- The mnemonics (R83, R94). -/
def mnemonicOf : Instr → String
  | .add _ _ _ => "ADD"
  | .mul _ _ _ => "MUL"
  | .input _ => "IN"
  | .output _ => "OUT"
  | .jt _ _ => "JT"
  | .jf _ _ => "JF"
  | .lt _ _ _ => "LT"
  | .eq _ _ _ => "EQ"
  | .arb _ => "ARB"
  | .halt => "HALT"

/-- An operand: `[d]`, `#d`, `[rb+d]` or `[rb-d]`, where the last has the raw word `-d` (R94). -/
def operandText (p : Param) : String :=
  match p.mode with
  | .position => "[" ++ toString p.raw.toInt ++ "]"
  | .immediate => "#" ++ toString p.raw.toInt
  | .relative =>
    if p.raw.toInt < 0 then "[rb-" ++ toString (-p.raw.toInt) ++ "]" else "[rb+" ++ toString p.raw.toInt ++ "]"

/-- Items with a separator between them. -/
def separated (sep : String) : List String → String
  | [] => ""
  | [x] => x
  | x :: xs => x ++ sep ++ separated sep xs

/-- An instruction: `MNEMONIC op1, op2, op3` (R94). -/
def instrText (i : Instr) : String :=
  match i.params with
  | [] => mnemonicOf i
  | p :: ps => mnemonicOf i ++ " " ++ separated ", " (operandText p :: ps.map operandText)

/-- A line of a listing (R94). -/
inductive AsmLine where
  /-- One instruction: there are no pseudo-instructions (R95). -/
  | instr (i : Instr)
  /-- `.word v, …`: data words. -/
  | word (vs : List Word)
  deriving DecidableEq, Repr

/-- A line of a listing as text (R94). -/
def AsmLine.text : AsmLine → String
  | .instr i => instrText i
  | .word vs => ".word " ++ separated ", " (vs.map fun v => toString v.toInt)

/-- The words of a line: the canonical instruction word and the raw words, or the data words (R94, R95). -/
def AsmLine.words : AsmLine → List Word
  | .instr i => encode i
  | .word vs => vs

/-- The words of a listing, first line at the lowest address. -/
def assemble (ls : List AsmLine) : List Word := ls.flatMap AsmLine.words

/-- A program as the text that `load` takes: comma-separated decimal integers (R94, and spec/47_host_interface.md R201). -/
def programText (ws : List Word) : String := separated "," (ws.map fun v => toString v.toInt)

end Sys2Proof.Machine
end

