-- ==== Sys2Proof/Tests/Slice0.lean ====
section
/-! SUPPORT. Tests of the model against the spec's own vectors (spec/95_test_vectors.md) and examples, and a witness for the
hypotheses of every statement. Every expected result is the spec's. -/

namespace Sys2Proof.Tests

open Sys2Proof Sys2Proof.Machine

/-! ## Helpers -/

/-- A running instance of a program whose adapter answers the inputs and then `Unavailable`. -/
def program (ws inputs : List Int) : State :=
  { State.loaded none 0 (ws.map Word.ofInt) with
    run := .running, adapter := { answers := inputs.map Word.ofInt, after := .unavailable } }

/-- The same with another instruction pointer and relative base. -/
def programAt (ip : Nat) (rb : Int) (ws : List Int) : State := { program ws [] with ip := ip, rb := Word.ofInt rb }

/-- The next state, if there is one. -/
def nextOf : Host.Outcome State Fault Refusal → Option State
  | .next t => some t
  | .fault _ => none
  | .refused _ => none

/-- The refusal, if there is one. -/
def refusalOf : Host.Outcome State Fault Refusal → Option Refusal
  | .next _ => none
  | .fault _ => none
  | .refused q => some q

/-- The fault answered, if there is one. -/
def faultOf : Host.Outcome State Fault Refusal → Option Fault
  | .next _ => none
  | .fault k => some k
  | .refused _ => none

/-- What one step leaves, seen through a view of the state. -/
def stepped {α : Type} (s : State) (view : State → α) : Option α := (nextOf (step s)).map view

/-- What an instruction leaves, seen through a view of the state. -/
def executed {α : Type} (i : Instr) (s : State) (view : State → α) : Option α := (nextOf (exec i s)).map view

/-- The memory of a list of integers. -/
def memoryOf (ws : List Int) : Memory := Memory.ofList (ws.map Word.ofInt)

/-- The words of a list of integers. -/
def wordsOf (ws : List Int) : List Word := ws.map Word.ofInt

/-- What a call returned, if it did. -/
def resultOf : CallEnd → Option CallResult
  | .returned r _ => some r
  | .waiting _ => none
  | .refused _ _ => none
  | .outOfBudget _ => none

/-- A position, an immediate and a relative parameter. -/
def pos (d : Int) : Param := { mode := .position, raw := Word.ofInt d }
def imm (d : Int) : Param := { mode := .immediate, raw := Word.ofInt d }
def rel (d : Int) : Param := { mode := .relative, raw := Word.ofInt d }

/-! ## Well-formedness: an ill-formed term for the check, in each place that has one (R56, R88) -/

theorem test_wf_refuses_immediate_targets :
    [Instr.add (pos 0) (pos 0) (imm 0), .mul (imm 1) (imm 1) (imm 0), .lt (rel 0) (pos 0) (imm 1),
      .eq (imm 1) (rel 1) (imm 5), .input (imm 5)].map Instr.wf = [false, false, false, false, false] := by decide

theorem test_wf_accepts_the_other_modes :
    [Instr.add (imm 0) (rel 0) (pos 0), .eq (imm 1) (imm 1) (rel 5), .input (rel 5), .output (imm 0), .jt (imm 1) (imm 0),
      .arb (imm (-1)), .halt].all Instr.wf = true := by decide

/-! ## Decoding: one word of every instruction, from the digits of R81 to R83 and the examples of the rules -/

/-- R94: `ADD [rb+3], #7, [12]` is `1201,3,7,12`: opcode 01, `A = 2`, `B = 1`, `C = 0`. -/
theorem test_decode_add : decode (wordsOf [1201, 3, 7, 12]) = .ok (.add (rel 3) (imm 7) (pos 12)) := by decide
/-- R141: `MUL [4], #3, [4]` is `1002,4,3,4`. -/
theorem test_decode_mul : decode (wordsOf [1002, 4, 3, 4, 33]) = .ok (.mul (pos 4) (imm 3) (pos 4)) := by decide
/-- V-IO-4: `203,5` is `IN [rb+5]`. -/
theorem test_decode_input : decode (wordsOf [203, 5]) = .ok (.input (rel 5)) := by decide
/-- R86: `11104` is OUT with `A = 1`; digits 3 and 4 are ignored. -/
theorem test_decode_output : decode (wordsOf [11104, 0]) = .ok (.output (imm 0)) := by decide
/-- V-J-11: `1005,5,7` is `JT [5], #7`. -/
theorem test_decode_jt : decode (wordsOf [1005, 5, 7]) = .ok (.jt (pos 5) (imm 7)) := by decide
/-- R161: `1106,0,4` is `JF #0, #4`. -/
theorem test_decode_jf : decode (wordsOf [1106, 0, 4]) = .ok (.jf (imm 0) (imm 4)) := by decide
/-- R170: `7,5,6,7` is `LT [5], [6], [7]`. -/
theorem test_decode_lt : decode (wordsOf [7, 5, 6, 7]) = .ok (.lt (pos 5) (pos 6) (pos 7)) := by decide
/-- R171: `1108,-1,-1,5` is `EQ #-1, #-1, [5]`. -/
theorem test_decode_eq : decode (wordsOf [1108, -1, -1, 5]) = .ok (.eq (imm (-1)) (imm (-1)) (pos 5)) := by decide
/-- V-RB-4: `209,-3` is `ARB [rb-3]`. -/
theorem test_decode_arb : decode (wordsOf [209, -3]) = .ok (.arb (rel (-3))) := by decide
/-- R190: `99`, `199`, `1099` and `12399` are all HALT. -/
theorem test_decode_halt :
    [99, 199, 1099, 12399].map (fun w => decode (wordsOf [w])) = [.ok .halt, .ok .halt, .ok .halt, .ok .halt] := by decide

/-- V-DEC-1 to V-DEC-5, and the words 10 and 98 at the edges of the unsupported opcodes (R89, R90). -/
theorem test_decode_unknown :
    ([0, 10, 98, 100, -1, -99, -101] : List Int).map (fun w => decode (wordsOf [w])) =
      List.replicate 7 (.error .unknownOpcode) := by decide
/-- V-DEC-9, V-DEC-10 and digit 9 in each place (R87); in V-DEC-8 the digit 3 lies beyond the arity. -/
theorem test_decode_malformed :
    ([301, 30001, 901, 9001, 90002, 903, 9005, 309] : List Int).map (fun w => decode (wordsOf [w, 0, 0, 0])) =
      List.replicate 8 (.error .malformedParameter) := by decide
/-- R91: the opcode is checked first. -/
theorem test_decode_order : decode (wordsOf [99998, 0, 0, 0]) = .error .unknownOpcode := by decide

/-- R94: the encoder gives the words of the spec's own example, and the notation its text. -/
theorem test_assemble :
    assemble [.instr (.add (rel 3) (imm 7) (pos 12)), .instr (.jt (imm 1) (rel (-3))), .word [30#64, -1#64]] =
      wordsOf [1201, 3, 7, 12, 2105, 1, -3, 30, -1] := by decide
theorem test_notation :
    [AsmLine.instr (.add (rel 3) (imm 7) (pos 12)), .instr (.jt (imm 1) (rel (-3))), .instr .halt,
      .word [30#64, -1#64]].map AsmLine.text =
      ["ADD [rb+3], #7, [12]", "JT #1, [rb-3]", "HALT", ".word 30, -1"] := by decide

/-- Log entry 8: the table's bits, word 0 lowest: `1101,2,3,0` and HALT. -/
theorem test_decodeTableWord :
    decodeTableWord 256 (1101 + 2 * 2 ^ 64 + 3 * 2 ^ 128) = some (.add (imm 2) (imm 3) (pos 0)) ∧
    decodeTableWord 64 99 = some .halt ∧ decodeTableWord 64 0 = none := by decide
/-- R140 through the fetch word: 2 + 3 is written to address 0. -/
theorem test_withFetchWord :
    stepped (State.reset.withFetchWord 256 (1101 + 2 * 2 ^ 64 + 3 * 2 ^ 128)) (fun t => (t.mem.read 0, t.ip, t.fault)) =
      some (5#64, 4, none) := by decide

/-! ## One step of each instruction -/

/-- V-AR-12: `1,1,1,1,99` leaves `1,2,1,1,99`. -/
theorem test_add_aliasing :
    stepped (program [1, 1, 1, 1, 99] []) (fun t => (t.mem, t.ip)) = some (memoryOf [1, 2, 1, 1, 99], 4) := by decide
/-- V-AR-4: `WORD_MAX + 1` faults and writes nothing. -/
theorem test_add_overflow :
    stepped (program [1101, 9223372036854775807, 1, 0, 99] []) (fun t => (t.mem.read 0, t.ip, t.fault)) =
      some (1101#64, 4, some ⟨.arithmeticOverflow, 0⟩) := by decide
/-- V-AR-10: `-2^62 * 2 = WORD_MIN`. -/
theorem test_mul_least :
    stepped (program [1102, -4611686018427387904, 2, 0, 99] []) (fun t => ((t.mem.read 0).toInt, t.fault)) =
      some (wordMin, none) := by decide
/-- V-AR-9: `2^62 * 2` faults. -/
theorem test_mul_overflow :
    stepped (program [1102, 4611686018427387904, 2, 0, 99] []) (fun t => (t.mem.read 0, t.fault)) =
      some (1102#64, some ⟨.arithmeticOverflow, 0⟩) := by decide
/-- V-IO-6: IN overwrites its own parameter word. -/
theorem test_input_own_word :
    stepped (program [3, 1, 99] [4]) (fun t => (t.mem, t.ip, t.cursor)) = some (memoryOf [3, 4, 99], 2, 1) := by decide
/-- V-IO-2: an unavailable input faults after the cursor has moved; memory is unchanged. -/
theorem test_input_unavailable :
    stepped (program [3, 0, 99] []) (fun t => (t.mem.read 0, t.ip, t.cursor, t.fault)) =
      some (3#64, 2, 1, some ⟨.inputUnavailable, 0⟩) := by decide
/-- V-MEM-5: with `rb = -1`, `204,1` outputs `M[0] = 109`. -/
theorem test_output_relative :
    stepped (programAt 2 (-1) [109, -1, 204, 1, 99]) (fun t => (t.out, t.ip)) = some ([109#64], 4) := by decide
/-- V-MEM-7: a relative address of `2^63` overflows. -/
theorem test_output_overflow :
    stepped (programAt 2 9223372036854775807 [109, 9223372036854775807, 204, 1, 99]) (fun t => (t.out, t.ip, t.fault)) =
      some ([], 4, some ⟨.arithmeticOverflow, 2⟩) := by decide
/-- V-J-3: -5 is not 0, so the jump is taken. -/
theorem test_jt_taken : stepped (program [1105, -5, 9, 99] []) (fun t => (t.ip, t.fault)) = some (9, none) := by decide
/-- V-J-9: the target operand at -1 faults at resolution. -/
theorem test_jt_resolution :
    stepped (program [105, 1, -1, 99] []) (fun t => (t.ip, t.fault)) = some (3, some ⟨.invalidAddress, 0⟩) := by decide
/-- V-J-7: a jump not taken does not look at its negative target. -/
theorem test_jf_untaken : stepped (program [1106, 1, -5, 99] []) (fun t => (t.ip, t.fault)) = some (3, none) := by decide
/-- V-J-6: a taken jump to a negative target faults and leaves `ip = 3`. -/
theorem test_jf_negative :
    stepped (program [1106, 0, -5, 99] []) (fun t => (t.ip, t.fault)) = some (3, some ⟨.invalidAddress, 0⟩) := by decide
/-- V-CMP-3: `WORD_MIN < WORD_MAX`. -/
theorem test_lt_signed :
    stepped (program [1107, -9223372036854775808, 9223372036854775807, 5, 99] []) (fun t => (t.mem.read 5, t.mem.len)) =
      some (1#64, 6) := by decide
/-- V-CMP-4: `0 < -1` does not hold. -/
theorem test_lt_false : stepped (program [1107, 0, -1, 2, 99] []) (fun t => t.mem.read 2) = some 0#64 := by decide
/-- V-CMP-7: the target is the operand. -/
theorem test_eq_aliasing :
    stepped (program [8, 5, 5, 5, 99, 7] []) (fun t => t.mem) = some (memoryOf [8, 5, 5, 5, 99, 1]) := by decide
/-- V-CMP-8: an immediate target faults at resolution. -/
theorem test_eq_immediate_target :
    stepped (program [11108, 1, 1, 0, 99] []) (fun t => (t.mem.read 0, t.ip, t.fault)) =
      some (11108#64, 4, some ⟨.invalidAddress, 0⟩) := by decide
/-- V-RB-4: with `rb = 5`, `ARB [rb-3]` reads `M[2] = 209` and gives `rb = 214`. -/
theorem test_arb_relative :
    stepped (programAt 2 5 [109, 5, 209, -3, 204, -5, 99]) (fun t => (t.rb, t.ip)) = some (214#64, 4) := by decide
/-- V-RB-3: the overflow leaves `rb` unchanged. -/
theorem test_arb_overflow :
    stepped (programAt 2 9223372036854775807 [109, 9223372036854775807, 109, 1, 99]) (fun t => (t.rb.toInt, t.fault)) =
      some (wordMax, some ⟨.arithmeticOverflow, 2⟩) := by decide
/-- V-H-2 and R190: `ip` ends past the instruction and the instance is `Halted`. -/
theorem test_halt :
    stepped (program [12399] []) (fun t => (t.ip, t.run, t.isRunning)) = some (1, .halted, false) := by decide
/-- V-MEM-9: with `MEM_LIMIT = some 50` a write at 60 faults and does not grow memory. -/
theorem test_memory_limit :
    stepped { program [1101, 1, 1, 60, 99] [] with memLimit := some 50 } (fun t => (t.mem.len, t.fault)) =
      some (5, some ⟨.memoryExhausted, 0⟩) := by decide
/-- V-DEC-1: a fetch of 0 faults and leaves `ip`. -/
theorem test_fetch_unknown :
    stepped (program [0, 0, 0, 0, 99] []) (fun t => (t.ip, t.run, t.fault)) =
      some (0, .running, some ⟨.unknownOpcode, 0⟩) := by decide

/-! ## Loading and the controller -/

/-- V-LD-1, V-LD-2 and V-LD-9. -/
theorem test_load_ok :
    ["1,2,3", " 1, 2 ,,3 \n", "-9223372036854775808"].map (fun x => (load none 0 x).map State.mem) =
      [some (memoryOf [1, 2, 3]), some (memoryOf [1, 2, 3]), some (memoryOf [-9223372036854775808])] := by decide
/-- V-LD-3 to V-LD-8 and V-LD-10. -/
theorem test_load_malformed :
    ["", ",,,", "1,a", "1 2", "+5", "9223372036854775808", "1.5"].map (load none 0) = List.replicate 7 none := by decide
/-- V-CTL-6: `104,7,99` pauses with the value 7, and `is_running` holds. -/
theorem test_next_output :
    (match (State.loaded none 0 (wordsOf [104, 7, 99])).runToNextOutput 1 with
      | .returned r t => some (r, t.run, t.ip, t.isRunning)
      | _ => none) = some (.value 7#64, .paused, 2, true) := by decide
/-- V-H-1: `99` with `run_to_next_output`. -/
theorem test_no_output : resultOf ((State.loaded none 0 (wordsOf [99])).runToNextOutput 1) = some .noOutputProduced := by
  decide
/-- V-CTL-4: the second call returns the recorded error and runs no step. -/
theorem test_faulted_call :
    (match (State.loaded none 0 (wordsOf [0])).runToCompletion 1 with
      | .returned r t => some (r, t.isRunning, resultOf (t.runToNextOutput 0))
      | _ => none) = some (.error .unknownOpcode, true, some (.error .unknownOpcode)) := by decide
/-- R208 from `Idle` on `99`, under a budget of no steps: no result of the core (R287). -/
theorem test_budget : resultOf ((State.loaded none 0 (wordsOf [99])).runToCompletion 0) = none := by decide
/-- R240: the codes. -/
theorem test_codes :
    [Fault.unknownOpcode, .invalidAddress, .inputUnavailable, .malformedParameter, .arithmeticOverflow,
      .memoryExhausted].map Fault.code = [2, 3, 4, 5, 6, 7] := by decide
/-- L3-P6, its first turn: worker A echoes the 5 that the orchestrator sent, and sends it on to worker B. -/
theorem test_pipeline_forwards :
    let channel : Adapter := { answers := [], after := .noAnswer }
    let vm : State := { State.loaded none 0 (wordsOf [3, 11, 4, 11, 1005, 11, 0, 99]) with adapter := channel }
    let p : Pipeline := { workers := [{ vm := vm, exited := false }, { vm := vm, exited := false }], received := [] }
    ((p.deliver 0 5#64).turn 2 0).workers.map (fun w => (w.vm.run, w.vm.out, w.vm.adapter.answers)) =
      [(.paused, [5#64], [5#64]), (.idle, [], [5#64])] := by decide

/-! ## Witnesses: for every statement with hypotheses, concrete values that meet them, clause by clause -/

theorem test_witness_MemReadIsTheCellOrZero :
    (memoryOf [7, 0, 9]).wf = true ∧ 2 < [7, 0, 9].length ∧ (memoryOf [7, 0, 9]).len ≤ 3 ∧
      (memoryOf [7, 0, 9]).read 2 = 9#64 := by decide

theorem test_witness_MemWriteGrowsThenStores :
    (∀ bound, ({ program [99] [] with memLimit := some 50 } : State).memLimit = some bound → 49 < bound) ∧
    ({ program [99] [] with memLimit := some 50 } : State).memLimit = some 50 ∧ 50 ≤ 50 ∧
    (program [99] []).mem.wf = true ∧ (program [99] []).mem.len ≤ 1 ∧ 1 < 49 :=
  ⟨fun _ h => by injection h with h; omega, by decide⟩

theorem test_witness_WritePastTheEndNeverFails :
    (program [99] []).mem.wf = true ∧ (program [99] []).memLimit = none ∧ (program [99] []).mem.len ≤ 1 ∧
      1 < (program [99] []).mem.len + 1 := by decide

theorem test_witness_OperandsByMode :
    (0 : Int) ≤ (0#64 : Word).toInt ∧ (-1#64 : Word).toInt < 0 ∧
    0 ≤ (programAt 0 (-1) []).rb.toInt + (1#64 : Word).toInt ∧
    (programAt 0 9223372036854775807 []).rb.toInt + (0#64 : Word).toInt ≤ wordMax ∧
    (programAt 0 (-1) []).rb.toInt + (0#64 : Word).toInt < 0 ∧
    wordMax < (programAt 0 9223372036854775807 []).rb.toInt + (1#64 : Word).toInt := by decide

theorem test_witness_LiteralEqualsCellThatHoldsIt :
    0 ≤ (3#64 : Word).toInt ∧ (program [4, 3, 99, 77] []).mem.read (3#64 : Word).toInt.toNat = 77#64 := by decide

theorem test_witness_WordsOfAnInstruction :
    decode (wordsOf [11104, 0, 0, 0]) = .ok (.output (imm 0)) ∧
    (11104 : Int) = canonicalValue (.output (imm 0)) + 10 ^ ((Instr.output (imm 0)).arity + 2) * ((11 : Nat) : Int) := by
  decide

theorem test_witness_DigitsBeyondTheArityAreIgnored :
    opcodeField 104#64 = opcodeField 93104#64 ∧ arityOf (opcodeField 104#64) = some 1 ∧
    (∀ j, 1 ≤ j → j ≤ 1 → digit 104#64 (j + 1) = digit 93104#64 (j + 1)) := by
  refine ⟨by decide, by decide, fun j h1 h2 => ?_⟩
  obtain rfl : j = 1 := by omega
  decide

theorem test_witness_DecodeFaults :
    opcodeField (rawWord (wordsOf [98]) 0) ∉ ([1, 2, 3, 4, 5, 6, 7, 8, 9, 99] : List Int) ∧
    (rawWord (wordsOf [0]) 0).toInt ≤ 0 ∧ (programAt 1 0 [98]).mem.len ≤ (programAt 1 0 [98]).ip ∧
    (program [301] []).InProgress ∧ decode (program [301] []).fetchWords = .error .malformedParameter ∧
    arityOf (opcodeField (rawWord (wordsOf [30001]) 0)) = some 3 ∧
    digit (rawWord (wordsOf [30001]) 0) (3 + 1) ∉ ([0, 1, 2] : List Int) := by decide

theorem test_witness_ImmediateTargetFaultsAtResolution :
    (program [11101, 1, 1, 0] []).readOperand (imm 1) = .ok 1#64 := by decide

theorem test_witness_StepRunsTheDecodedInstruction :
    (program [99] []).InProgress ∧ decode (program [99] []).fetchWords = .ok .halt ∧
    (executed .halt (program [99] []) State.ip) = some 1 ∧
    refusalOf (exec (.input (pos 0)) { program [3, 0] [] with adapter := { answers := [], after := .noAnswer } }) =
      some .awaitingInput := by decide

theorem test_witness_StepRunsTheEncodingInMemory :
    (program [1201, 3, 7, 12] []).InProgress ∧
    (∀ j < (encode (.add (rel 3) (imm 7) (pos 12))).length,
      (program [1201, 3, 7, 12] []).mem.read (0 + j) = (encode (.add (rel 3) (imm 7) (pos 12))).getD j 0#64) ∧
    executed (.add (rel 3) (imm 7) (pos 12)) (program [1201, 3, 7, 12] []) State.ip = some 4 := by decide

theorem test_witness_ControllerCheckAfterAStep :
    ((program [99] []).raise .invalidAddress 0).fault ≠ none ∧
    ({ program [99] [] with run := .halted } : State).fault = none ∧
    (program [99] []).nextOutputFrom = none ∧
    (0 < [1#64].length ∧ ({ program [99] [] with nextOutputFrom := some 0, out := [1#64] } : State).run = .running) ∧
    ({ program [99] [] with nextOutputFrom := some 1, out := [1#64] } : State).out.length ≤ 1 := by decide

theorem test_witness_DecodeFaultChangesOnlyTheRecord :
    (program [98] []).InProgress ∧ opcodeField ((program [98] []).mem.read 0) ∉ ([1, 2, 3, 4, 5, 6, 7, 8, 9, 99] : List Int) ∧
    (programAt 1 0 [98]).mem.len ≤ (programAt 1 0 [98]).ip ∧
    arityOf (opcodeField ((program [301] []).mem.read 0)) = some 3 ∧
    digit ((program [301] []).mem.read 0) (1 + 1) ∉ ([0, 1, 2] : List Int) := by decide

theorem test_witness_NoStepOutsideACall :
    stepped (program [99] []) State.run = some .halted ∧
    faultOf (step ((program [99] []).raise .invalidAddress 0)) = some .invalidAddress ∧
    (State.loaded none 0 (wordsOf [99])).run = .idle ∧
    ({ program [99] [] with run := .paused } : State).fault = none ∧
    ({ program [99] [] with run := .halted } : State).fault = none := by decide

theorem test_witness_FaultLeavesWhatWasDone :
    stepped (program [0] []) State.fault = some (some ⟨.unknownOpcode, 0⟩) ∧
    stepped (program [301] []) State.fault = some (some ⟨.malformedParameter, 0⟩) ∧
    stepped (program [4, -1] []) State.fault = some (some ⟨.invalidAddress, 0⟩) ∧
    stepped (program [3, 0] []) State.fault = some (some ⟨.inputUnavailable, 0⟩) := by decide

/-- Each fault with each of its causes: a negative position and relative address, an immediate target and a negative jump; a
relative address above `WORD_MAX` and the results of ADD, MUL and ARB; an unavailable input; the limit. -/
theorem test_witness_FaultKindsByInstruction :
    [executed (.output (pos (-1))) (program [] []) State.fault, executed (.output (rel (-1))) (program [] []) State.fault,
      executed (.input (imm 0)) (program [] []) State.fault, executed (.jt (imm 1) (imm (-1))) (program [] []) State.fault,
      executed (.jf (imm 0) (imm (-1))) (program [] []) State.fault] =
      List.replicate 5 (some (some ⟨.invalidAddress, 0⟩)) ∧
    [executed (.output (rel 9223372036854775807)) (programAt 0 1 []) State.fault,
      executed (.add (imm 9223372036854775807) (imm 1) (pos 0)) (program [] []) State.fault,
      executed (.mul (imm 4611686018427387904) (imm 2) (pos 0)) (program [] []) State.fault,
      executed (.arb (imm 9223372036854775807)) (programAt 0 1 []) State.fault] =
      List.replicate 4 (some (some ⟨.arithmeticOverflow, 0⟩)) ∧
    executed (.input (pos 0)) (program [3, 0] []) State.fault = some (some ⟨.inputUnavailable, 0⟩) ∧
    executed (.add (imm 1) (imm 1) (pos 50)) { program [99] [] with memLimit := some 50 } State.fault =
      some (some ⟨.memoryExhausted, 0⟩) ∧
    executed .halt (program [99] []) State.fault = some none := by decide

/-- The hypotheses of the format clauses: the digits of a word of each format, at the modes 2, 1 and 0 and at the digit 3. -/
theorem test_witness_Formats :
    (opcodeField 2101#64 = 1 ∧ modeOfDigit (digit 2101#64 2) = some .immediate ∧
      modeOfDigit (digit 2101#64 3) = some .relative ∧ modeOfDigit (digit 2101#64 4) = some .position) ∧
    (opcodeField 30002#64 = 2 ∧ modeOfDigit (digit 30002#64 4) = none) ∧
    (opcodeField 3005#64 = 5 ∧ modeOfDigit (digit 3005#64 3) = none) ∧
    (opcodeField 309#64 = 9 ∧ modeOfDigit (digit 309#64 2) = none) := by decide

/-- ADD at the upper end of the word range, on either side of a memory limit of 50. -/
theorem test_witness_AddFollowsItsRule :
    let s := program [] []
    let limited : State := { s with memLimit := some 50 }
    s.readOperand (imm 9223372036854775806) = .ok 9223372036854775806#64 ∧ s.readOperand (imm 1) = .ok 1#64 ∧
    s.readOperand (imm 2) = .ok 2#64 ∧ s.writeAddress (pos 50) = .ok 50 ∧ limited.writeAddress (pos 50) = .ok 50 ∧
    (9223372036854775807#64 : Word).toInt = (9223372036854775806#64 : Word).toInt + (1#64 : Word).toInt ∧
    beyondLimit s.memLimit 50 = false ∧ beyondLimit limited.memLimit 49 = false ∧ beyondLimit limited.memLimit 50 = true ∧
    ¬ InWord ((9223372036854775806#64 : Word).toInt + (2#64 : Word).toInt) := by decide

/-- MUL at the lower end of the word range. -/
theorem test_witness_MulFollowsItsRule :
    let s := program [] []
    s.readOperand (imm (-4611686018427387904)) = .ok (Word.ofInt (-4611686018427387904)) ∧
    s.readOperand (imm 2) = .ok 2#64 ∧ s.readOperand (imm 3) = .ok 3#64 ∧ s.writeAddress (pos 50) = .ok 50 ∧
    (Word.ofInt wordMin).toInt = (Word.ofInt (-4611686018427387904)).toInt * (2#64 : Word).toInt ∧
    ¬ InWord ((Word.ofInt (-4611686018427387904)).toInt * (3#64 : Word).toInt) := by decide

/-- A first fault at each parameter. -/
theorem test_witness_FirstFault :
    (program [] []).firstFault [.read, .read, .write] [pos (-1), imm 0, pos 0] = some .invalidAddress ∧
    (program [] []).firstFault [.read, .read, .write] [imm 0, rel (-1), pos 0] = some .invalidAddress ∧
    (program [] []).firstFault [.read, .read, .write] [imm 0, imm 0, imm 0] = some .invalidAddress ∧
    (programAt 0 1 []).firstFault [.read, .read] [imm 0, rel 9223372036854775807] = some .arithmeticOverflow := by decide

/-- LT and EQ with a result of 1 and of 0. -/
theorem test_witness_LtAndEqFollowTheirRules :
    let s := program [] []
    s.readOperand (imm (-1)) = .ok (-1#64) ∧ s.readOperand (imm 0) = .ok 0#64 ∧ s.writeAddress (rel 50) = .ok 50 ∧
    (1#64 : Word).toInt = (if (-1#64 : Word).toInt < (0#64 : Word).toInt then 1 else 0) ∧
    (0#64 : Word).toInt = (if (0#64 : Word).toInt < (0#64 : Word).toInt then 1 else 0) ∧
    (1#64 : Word).toInt = (if (-1#64 : Word).toInt = (-1#64 : Word).toInt then 1 else 0) ∧
    (0#64 : Word).toInt = (if (0#64 : Word).toInt = (-1#64 : Word).toInt then 1 else 0) := by decide

theorem test_witness_InputFollowsItsRule :
    (program [] []).writeAddress (imm 0) = .error .invalidAddress ∧ (program [] []).writeAddress (pos 50) = .ok 50 ∧
    (program [] [42]).adapter.request 0 = .value 42#64 ∧ (program [] []).adapter.request 0 = .unavailable ∧
    ({ answers := [], after := .noAnswer } : Adapter).request 0 = .noAnswer ∧
    beyondLimit none 50 = false ∧ beyondLimit (some 50) 50 = true := by decide

theorem test_witness_OutputAndArb :
    (program [] []).readOperand (imm 7) = .ok 7#64 ∧ (program [] []).readOperand (pos (-1)) = .error .invalidAddress ∧
    (4#64 : Word).toInt = (programAt 0 (-3) []).rb.toInt + (7#64 : Word).toInt ∧
    ¬ InWord ((programAt 0 9223372036854775807 []).rb.toInt + (7#64 : Word).toInt) := by decide

/-- A jump taken to 0, taken to -1 and not taken, for JT and JF. -/
theorem test_witness_Jumps :
    (program [] []).readOperand (imm (-1)) = .ok (-1#64) ∧ (program [] []).readOperand (imm 0) = .ok 0#64 ∧
    (-1#64 : Word).toInt ≠ 0 ∧ (0#64 : Word).toInt = 0 ∧ 0 ≤ (0#64 : Word).toInt ∧ (-1#64 : Word).toInt < 0 := by decide

theorem test_witness_HaltFollowsItsRule :
    opcodeField (rawWord (wordsOf [12399]) 0) = 99 ∧ (program [12399] []).InProgress ∧
    opcodeField ((program [12399] []).mem.read 0) = 99 := by decide

/-- An OUT inside a `run_to_next_output`. -/
theorem test_witness_OutputPauses :
    let s : State := { program [104, 7] [] with nextOutputFrom := some 0 }
    s.InProgress ∧ decode s.fetchWords = .ok (.output (imm 7)) ∧ s.nextOutputFrom = some s.out.length ∧
      s.readOperand (imm 7) = .ok 7#64 := by decide

/-- Every instruction completes (DefaultAdvance and the frames): one that stores, one that names no cell, and each of the others. -/
theorem test_witness_Frames :
    ([Instr.add (imm 1) (imm 1) (pos 5), .mul (imm 1) (imm 1) (pos 5), .lt (imm 1) (imm 1) (pos 5),
      .eq (imm 1) (imm 1) (pos 5), .add (imm 1) (imm 1) (imm 5), .input (pos 5), .input (imm 5), .output (imm 5),
      .jt (imm 1) (imm 5), .jf (imm 1) (imm 5), .arb (imm 5), .halt].map
        (fun i => executed i (program [99] [8]) State.ip)) =
      [some 4, some 4, some 4, some 4, some 4, some 2, some 2, some 2, some 5, some 3, some 2, some 1] ∧
    (program [] []).writeAddress (pos 5) = .ok 5 ∧ (program [] []).writeAddress (imm 5) = .error .invalidAddress := by decide

/-- A step that writes each field: the relative base, the log, the cursor, memory and the Run State. -/
theorem test_witness_StepWritesOnlyItsFields :
    stepped (program [109, 5] []) State.rb = some 5#64 ∧ stepped (program [104, 5] []) State.out = some [5#64] ∧
    stepped (program [3, 0] [8]) (fun t => (t.cursor, t.mem.read 0)) = some (1, 8#64) ∧
    stepped (program [99] []) State.run = some .halted := by decide

theorem test_witness_StepDependsOnTheAnswerAlone :
    ({ answers := [8#64], after := .noAnswer } : Adapter).request 0 = (program [3, 0] [8]).adapter.request 0 ∧
    stepped (program [3, 0] [8]) State.cursor = some 1 ∧
    faultOf (step ((program [3, 0] [8]).raise .invalidAddress 0)) = some .invalidAddress ∧
    refusalOf (step { program [3, 0] [8] with run := .paused }) = some .paused := by decide

theorem test_witness_AnswerLiftsAStuckInput :
    let s : State := { program [3, 0, 99] [] with adapter := { answers := [], after := .noAnswer } }
    s.InProgress ∧ decode s.fetchWords = .ok (.input (pos 0)) ∧ s.writeAddress (pos 0) = .ok 0 ∧
      beyondLimit s.memLimit 0 = false ∧ s.adapter.after = .noAnswer ∧ s.adapter.answers.length = s.cursor := by decide

/-- Tokens with a minus and without, and what trimming leaves. -/
theorem test_witness_TextIsReadAsTokens :
    tokenWord "-7".toList = some (-7#64) ∧ tokenWord "007".toList = some 7#64 ∧ tokenWord "-".toList = none ∧
    (trimPiece " 1 2\t".toList).head? = some '1' ∧ (trimPiece " 1 2\t".toList).getLast? = some '2' := by decide

theorem test_witness_LoadCreatesOrFails :
    (load none 0 "1,2,3").isSome = true ∧ (∃ p ∈ tokensOf "1,a", tokenWord p = none) ∧ tokensOf ",,," = [] := by decide

theorem test_witness_PatchThenPeek :
    (State.loaded none 0 (wordsOf [99])).run = .idle ∧ beyondLimit (some 50) 49 = false ∧ beyondLimit (some 50) 50 = true ∧
    (program [99] []).run ≠ .idle := by decide

theorem test_witness_IsRunningReportsRunningAndPaused :
    stepped (program [0] []) (fun t => t.fault.isSome) = some true := by decide

theorem test_witness_Calls :
    (State.loaded none 0 (wordsOf [99])).fault = none ∧ (State.loaded none 0 (wordsOf [99])).run = .idle ∧
    ({ program [99] [] with run := .halted } : State).fault = none ∧
    ({ program [99] [] with run := .paused } : State).run = .paused ∧ (program [99] []).InProgress ∧
    ((program [99] []).raise .invalidAddress 0).fault = some ⟨.invalidAddress, 0⟩ := by decide

/-- Invariant states that step, in each of the three ways the Run State can go. -/
theorem test_witness_RunStateTransitionsOfAStep :
    stepped (program [104, 5] []) State.run = some .running ∧
    stepped { program [104, 5] [] with nextOutputFrom := some 0 } State.run = some .paused ∧
    stepped (program [99] []) State.run = some .halted := by decide
theorem test_witness_RunStateTransitionsOfAStep_invariant :
    (program [104, 5] []).Inv ∧ State.Inv { program [104, 5] [] with nextOutputFrom := some 0 } ∧ (program [99] []).Inv :=
  ⟨by decide, by decide, by decide⟩

theorem test_witness_NextOutput :
    resultOf ((State.loaded none 0 (wordsOf [104, 7, 99])).runToNextOutput 1) = some (.value 7#64) ∧
    resultOf ((State.loaded none 0 (wordsOf [99])).runToNextOutput 1) = some .noOutputProduced ∧
    (State.loaded none 0 (wordsOf [99])).run ≠ .running := by decide

theorem test_witness_ChannelIsFifo : 1 < [7#64, 8#64].length ∧ [7#64, 8#64].length ≤ 2 := by decide

/-- The states of a run: reset and a loaded instance, and states that step. -/
theorem test_witness_Invariant :
    State.reset.Inv ∧ (load none 0 "104,7,99").isSome = true ∧ (program [1, 0, 0, 0, 99] []).Inv ∧
    stepped (program [1, 0, 0, 0, 99] []) State.ip = some 4 := by decide
theorem test_witness_Reachable : Reachable (State.reset.receiveFromHost 5#64) := Reachable.send Reachable.reset

theorem test_witness_FaultIsPermanent :
    let s : State := (State.loaded none 0 (wordsOf [99])).raise .invalidAddress 0
    s.fault = some ⟨.invalidAddress, 0⟩ ∧ (nextOf (s.patch 1 5#64)).isSome = true ∧
      (nextOf (s.setInputAdapter (Adapter.unset 1))).isSome = true := by decide

theorem test_witness_PauseResumeEquivalence :
    let s := State.loaded none 0 (wordsOf [104, 7, 99])
    s.fault = none ∧ s.run = .idle ∧ (∀ k, (Adapter.unset 0).request k = s.adapter.request k) ∧
      resultOf (s.runToCompletion 2) = some (.ok [7#64]) :=
  ⟨by decide, by decide, fun _ => rfl, by decide⟩

end Sys2Proof.Tests
end

section
/-! The statements about the memory and the operands (spec/20_memory.md R51, R52, R55 to R57), with the laws they need:
a canonical memory is the list of its cells, when the limit forbids a write, and what each addressing mode answers. -/

namespace Sys2Proof.Machine

/-! ### Memory -/

/-- The memory made of the cells a canonical memory reads below its length is that memory. -/
theorem Memory.ofList_map_read {m : Memory} (hm : m.wf = true) :
    Memory.ofList ((List.range m.len).map m.read) = m := by
  refine Memory.ext_of_read (Memory.wf_ofList _) hm (by simp [Memory.ofList]) fun a => ?_
  rw [Memory.read_ofList]
  by_cases ha : a < m.len
  · simp [ha]
  · simp [ha, Memory.read_beyond hm (not_lt.mp ha)]

/-- Settles O1: a memory is the list of its first cells, and reads 0 past them. -/
theorem memReadIsTheCellOrZero : Obligations.MemReadIsTheCellOrZero := by
  refine ⟨fun ws a => ?_, fun _ => Memory.ofList_map_read, fun _ _ hm hlen => Memory.read_beyond hm hlen⟩
  rw [Memory.read_ofList, List.getD_eq_getElem?_getD]
  split
  next ha => simp [ha]
  next ha => simp [not_lt.mp ha]

/-- The limit allows a write at `a` when every bound it sets is above `a` (R52, R70). -/
theorem beyondLimit_eq_false_iff {limit : Option Nat} {a : Nat} :
    beyondLimit limit a = false ↔ ∀ bound, limit = some bound → a < bound := by
  cases limit <;> simp [beyondLimit]

/-- The limit forbids a write at `a` when it sets a bound at or below `a` (R52, R70). -/
theorem beyondLimit_eq_true_iff {limit : Option Nat} {a : Nat} :
    beyondLimit limit a = true ↔ ∃ bound, limit = some bound ∧ bound ≤ a := by
  cases limit <;> simp [beyondLimit]

/-- The gap a write leaves between the old end and its cell reads 0 (R52). -/
theorem Memory.read_write_gap {m : Memory} (hm : m.wf = true) {a b : Nat} (v : Word) (hlen : m.len ≤ b) (hb : b < a) :
    (m.write a v).read b = 0#64 := by
  rw [Memory.read_write_other m v (Nat.ne_of_lt hb), Memory.read_beyond hm hlen]

/-- Settles O2: below the limit `MemWrite` is `Memory.write`; at or above it, the fault. -/
theorem memWriteGrowsThenStores : Obligations.MemWriteGrowsThenStores := by
  intro s a v
  constructor
  · intro hbelow
    exact ⟨s.mem.write a v, State.memWrite_ok (beyondLimit_eq_false_iff.mpr hbelow), Memory.len_write s.mem a v,
      Memory.read_write_same s.mem a v, fun _ => Memory.read_write_other s.mem v,
      fun hm => ⟨Memory.wf_write hm a v, fun _ => Memory.read_write_gap hm v⟩⟩
  · intro bound hlimit hbound
    exact State.memWrite_error (beyondLimit_eq_true_iff.mpr ⟨bound, hlimit, hbound⟩)

/-! ### Addresses and operands -/

section
variable {rb d : Word}

/-- A position address that is not negative is the raw word (R55, R56). -/
theorem positionAddress_of_nonneg (h : 0 ≤ d.toInt) : positionAddress d = .ok d.toInt.toNat :=
  if_neg (not_lt.mpr h)

theorem positionAddress_of_neg (h : d.toInt < 0) : positionAddress d = .error .invalidAddress :=
  if_pos h

/-- A relative address within the range is the exact sum (R57). -/
theorem relativeAddress_of_inRange (h0 : 0 ≤ rb.toInt + d.toInt) (hmax : rb.toInt + d.toInt ≤ wordMax) :
    relativeAddress rb d = .ok (rb.toInt + d.toInt).toNat :=
  (if_neg (not_lt.mpr h0)).trans (if_neg (not_lt.mpr hmax))

theorem relativeAddress_of_neg (h : rb.toInt + d.toInt < 0) : relativeAddress rb d = .error .invalidAddress :=
  if_pos h

/-- A sum above `WORD_MAX` is not negative, so the overflow is the fault it takes (R57). -/
theorem relativeAddress_of_overflow (h : wordMax < rb.toInt + d.toInt) :
    relativeAddress rb d = .error .arithmeticOverflow := by
  have h0 : ¬ rb.toInt + d.toInt < 0 := by
    unfold wordMax at h
    omega
  exact (if_neg h0).trans (if_pos h)

/-- A position-mode read is the read of its address, or the fault of the address (R55). -/
theorem State.readOperand_position (s : State) (d : Word) :
    s.readOperand ⟨.position, d⟩ = (positionAddress d).map s.mem.read := by
  cases h : positionAddress d <;> simp [State.readOperand, h, Except.map]

theorem State.readOperand_immediate (s : State) (d : Word) : s.readOperand ⟨.immediate, d⟩ = .ok d := rfl

/-- A relative-mode read is the read of its address, or the fault of the address (R55, R57). -/
theorem State.readOperand_relative (s : State) (d : Word) :
    s.readOperand ⟨.relative, d⟩ = (relativeAddress s.rb d).map s.mem.read := by
  cases h : relativeAddress s.rb d <;> simp [State.readOperand, h, Except.map]

theorem State.writeAddress_position (s : State) (d : Word) :
    s.writeAddress ⟨.position, d⟩ = positionAddress d := rfl

theorem State.writeAddress_immediate (s : State) (d : Word) :
    s.writeAddress ⟨.immediate, d⟩ = .error .invalidAddress := rfl

theorem State.writeAddress_relative (s : State) (d : Word) :
    s.writeAddress ⟨.relative, d⟩ = relativeAddress s.rb d := rfl

end

/-- Settles O4: a read parameter in position or relative mode reads at its address, or takes the address's fault. -/
theorem readOperandByMode : Obligations.ReadOperandByMode := by
  intro s d
  rw [State.readOperand_position, State.readOperand_relative]
  refine ⟨fun h => ?_, fun h => ?_, State.readOperand_immediate s d, fun h0 hmax => ?_, fun h => ?_, fun h => ?_⟩
  · rw [positionAddress_of_nonneg h, Except.map]
  · rw [positionAddress_of_neg h, Except.map]
  · rw [relativeAddress_of_inRange h0 hmax, Except.map]
  · rw [relativeAddress_of_neg h, Except.map]
  · rw [relativeAddress_of_overflow h, Except.map]

/-- Settles O5: a write parameter in position or relative mode names its address, and none in immediate mode. -/
theorem writeAddressByMode : Obligations.WriteAddressByMode := by
  intro s d
  rw [State.writeAddress_position, State.writeAddress_relative]
  exact ⟨positionAddress_of_nonneg, positionAddress_of_neg, State.writeAddress_immediate s d,
    relativeAddress_of_inRange, relativeAddress_of_neg, relativeAddress_of_overflow⟩

end Sys2Proof.Machine
end

section
/-! The statements about the decoder (spec/30_encoding.md R86 to R90, R93), with the laws they need: the format and the arity
each opcode has, said once, and the fields of a canonical instruction word. -/

namespace Sys2Proof

/-! ### The format of an opcode -/

/-- What an opcode is to the decoder: the format it selects with the arity of that format, or no supported opcode
(R82, R83, R90). -/
inductive OpcodeFormat (op : Int) : Prop where
  | f3 (mk : Param → Param → Param → Instr) (harity : arityOf op = some 3)
      (hdecode : ∀ ws, opcodeField (rawWord ws 0) = op → decode ws = decodeF3 mk ws)
  | f2 (mk : Param → Param → Instr) (harity : arityOf op = some 2)
      (hdecode : ∀ ws, opcodeField (rawWord ws 0) = op → decode ws = decodeF2 mk ws)
  | f1 (mk : Param → Instr) (harity : arityOf op = some 1)
      (hdecode : ∀ ws, opcodeField (rawWord ws 0) = op → decode ws = decodeF1 mk ws)
  | f0 (harity : arityOf op = some 0) (hdecode : ∀ ws, opcodeField (rawWord ws 0) = op → decode ws = .ok .halt)
  | unsupported (harity : arityOf op = none)
      (hdecode : ∀ ws, opcodeField (rawWord ws 0) = op → decode ws = .error .unknownOpcode)

/-- The opcodes without an arity are the ones outside the supported set (R90). -/
theorem arityOf_eq_none {op : Int} : arityOf op = none ↔ op ∉ ([1, 2, 3, 4, 5, 6, 7, 8, 9, 99] : List Int) := by
  simp only [arityOf, List.mem_cons, List.not_mem_nil, or_false]
  split_ifs <;> simp only [false_iff, true_iff] <;> omega

/-- Every opcode has its format: the decoder's table, row by row (R83, R90). -/
theorem opcodeFormat (op : Int) : OpcodeFormat op := by
  rcases opcode_cases op with rfl | rfl | rfl | rfl | rfl | rfl | rfl | rfl | rfl | rfl | hop
  · exact .f3 .add rfl fun _ => decode_add
  · exact .f3 .mul rfl fun _ => decode_mul
  · exact .f1 .input rfl fun _ => decode_input
  · exact .f1 .output rfl fun _ => decode_output
  · exact .f2 .jt rfl fun _ => decode_jt
  · exact .f2 .jf rfl fun _ => decode_jf
  · exact .f3 .lt rfl fun _ => decode_lt
  · exact .f3 .eq rfl fun _ => decode_eq
  · exact .f1 .arb rfl fun _ => decode_arb
  · exact .f0 rfl fun _ => decode_halt
  · exact .unsupported (arityOf_eq_none.mpr hop) fun _ h => decode_unknown (h ▸ hop)

/-! ### Digits beyond the arity -/

section
variable {w w' : Word}

/-- The mode of a parameter depends on its digit alone (R81). -/
theorem modeOf_congr {j : Nat} (h : digit w (j + 1) = digit w' (j + 1)) : modeOf w j = modeOf w' j := by
  simp only [modeOf, h]

theorem decodeF1_congr (mk : Param → Instr) (ds : List Word) (h1 : modeOf w 1 = modeOf w' 1) :
    decodeF1 mk (w :: ds) = decodeF1 mk (w' :: ds) := by
  simp only [decodeF1, rawWord, List.getD_cons_zero, List.getD_cons_succ, h1]

theorem decodeF2_congr (mk : Param → Param → Instr) (ds : List Word) (h1 : modeOf w 1 = modeOf w' 1)
    (h2 : modeOf w 2 = modeOf w' 2) : decodeF2 mk (w :: ds) = decodeF2 mk (w' :: ds) := by
  simp only [decodeF2, rawWord, List.getD_cons_zero, List.getD_cons_succ, h1, h2]

theorem decodeF3_congr (mk : Param → Param → Param → Instr) (ds : List Word) (h1 : modeOf w 1 = modeOf w' 1)
    (h2 : modeOf w 2 = modeOf w' 2) (h3 : modeOf w 3 = modeOf w' 3) :
    decodeF3 mk (w :: ds) = decodeF3 mk (w' :: ds) := by
  simp only [decodeF3, rawWord, List.getD_cons_zero, List.getD_cons_succ, h1, h2, h3]

/-- Words that agree in a supported opcode and in the mode digits within its arity decode alike (R86). -/
theorem decode_eq_of_modeDigits {n : Nat} (ds : List Word) (hop : opcodeField w = opcodeField w')
    (hn : arityOf (opcodeField w) = some n) (hmodes : ∀ j, 1 ≤ j → j ≤ n → digit w (j + 1) = digit w' (j + 1)) :
    decode (w :: ds) = decode (w' :: ds) := by
  have mode (j : Nat) (h1 : 1 ≤ j) (h2 : j ≤ n) : modeOf w j = modeOf w' j := modeOf_congr (hmodes j h1 h2)
  cases opcodeFormat (opcodeField w) with
  | f3 mk harity hdecode =>
    obtain rfl : 3 = n := Option.some.inj (harity.symm.trans hn)
    rw [hdecode (w :: ds) rfl, hdecode (w' :: ds) hop.symm]
    exact decodeF3_congr mk ds (mode 1 (by decide) (by decide)) (mode 2 (by decide) (by decide))
      (mode 3 (by decide) (by decide))
  | f2 mk harity hdecode =>
    obtain rfl : 2 = n := Option.some.inj (harity.symm.trans hn)
    rw [hdecode (w :: ds) rfl, hdecode (w' :: ds) hop.symm]
    exact decodeF2_congr mk ds (mode 1 (by decide) (by decide)) (mode 2 (by decide) (by decide))
  | f1 mk harity hdecode =>
    obtain rfl : 1 = n := Option.some.inj (harity.symm.trans hn)
    rw [hdecode (w :: ds) rfl, hdecode (w' :: ds) hop.symm]
    exact decodeF1_congr mk ds (mode 1 (by decide) (by decide))
  | f0 _ hdecode => rw [hdecode (w :: ds) rfl, hdecode (w' :: ds) hop.symm]
  | unsupported harity _ => exact absurd (harity.symm.trans hn) (by simp)

end

/-- Settles O9: the format of the opcode reads only the mode digits within its arity. -/
theorem digitsBeyondTheArityAreIgnored : Obligations.DigitsBeyondTheArityAreIgnored := by
  refine ⟨fun w w' d1 d2 d3 n => decode_eq_of_modeDigits [d1, d2, d3], fun w hw ds => decode_halt ?_, fun d ds => ?_⟩
  · simp only [List.mem_cons, List.not_mem_nil, or_false] at hw
    change opcodeField w = 99
    obtain rfl | rfl | rfl := hw <;> decide
  · have hfield : opcodeField (rawWord (11104#64 :: d :: ds) 0) = 4 := (by decide : opcodeField 11104#64 = 4)
    rw [decode_output hfield, decodeF1_eq_ok]
    exact ⟨.immediate, (by decide : digit 11104#64 2 = 1), rfl⟩

/-! ### Unknown opcodes -/

/-- Decoding fails with `UnknownOpcode` exactly at an opcode without an arity (R90). -/
theorem decode_eq_unknownOpcode {ws : List Word} :
    decode ws = .error .unknownOpcode ↔ arityOf (opcodeField (rawWord ws 0)) = none := by
  cases opcodeFormat (opcodeField (rawWord ws 0)) with
  | f3 mk harity hdecode => simp [hdecode ws rfl, decodeF3_eq_error, harity]
  | f2 mk harity hdecode => simp [hdecode ws rfl, decodeF2_eq_error, harity]
  | f1 mk harity hdecode => simp [hdecode ws rfl, decodeF1_eq_error, harity]
  | f0 harity hdecode => simp [hdecode ws rfl, harity]
  | unsupported harity hdecode => simp [hdecode ws rfl, harity]

/-- A word that is not positive has no supported opcode (R89). -/
theorem arityOf_of_nonpos {w : Word} (hw : w.toInt ≤ 0) : arityOf (opcodeField w) = none := by
  have hop : ¬ 0 < opcodeField w := fun h => not_lt.mpr hw (opcodeField_pos h).1
  rw [arityOf_eq_none]
  simp only [List.mem_cons, List.not_mem_nil, or_false]
  omega

/-- The instruction word fetched past the end of memory is 0 (R51, R89). -/
theorem rawWord_fetchWords_beyond {s : Machine.State} (hm : s.mem.wf = true) (hip : s.mem.len ≤ s.ip) :
    rawWord s.fetchWords 0 = 0#64 := Machine.Memory.read_beyond hm hip

/-- Settles O10: an opcode is unknown when it has no arity, and no word that is not positive has one. -/
theorem unsupportedOpcodeIsUnknown : Obligations.UnsupportedOpcodeIsUnknown := by
  refine ⟨fun ws => decode_eq_unknownOpcode.trans arityOf_eq_none,
    fun ws hw => decode_eq_unknownOpcode.mpr (arityOf_of_nonpos hw), fun s hm hip => ?_⟩
  rw [decode_eq_unknownOpcode, rawWord_fetchWords_beyond hm hip]
  exact arityOf_of_nonpos (by decide)

/-! ### Malformed parameters -/

/-- A digit that stands for no mode (R87), as the list of the digits that do. -/
theorem modeOfDigit_eq_none_iff_not_mem {d : Int} : modeOfDigit d = none ↔ d ∉ ([0, 1, 2] : List Int) := by
  simp [modeOfDigit_eq_none]

/-- A parameter within the arity `n + 1` is one within the arity `n` or the last. -/
theorem exists_parameter_succ {n : Nat} {P : Nat → Prop} :
    (∃ j, 1 ≤ j ∧ j ≤ n + 1 ∧ P j) ↔ (∃ j, 1 ≤ j ∧ j ≤ n ∧ P j) ∨ P (n + 1) := by
  constructor
  · rintro ⟨j, h1, hj, hP⟩
    rcases Nat.le_succ_iff.mp hj with hj | rfl
    · exact .inl ⟨j, h1, hj, hP⟩
    · exact .inr hP
  · rintro (⟨j, h1, hj, hP⟩ | hP)
    · exact ⟨j, h1, Nat.le_succ_of_le hj, hP⟩
    · exact ⟨n + 1, by omega, le_rfl, hP⟩

/-- Decoding fails with `MalformedParameter` exactly at a supported opcode with a digit within its arity that stands for
no mode (R87). -/
theorem decode_eq_malformedParameter {ws : List Word} :
    decode ws = .error .malformedParameter ↔
      ∃ n, arityOf (opcodeField (rawWord ws 0)) = some n ∧
        ∃ j, 1 ≤ j ∧ j ≤ n ∧ modeOfDigit (digit (rawWord ws 0) (j + 1)) = none := by
  cases opcodeFormat (opcodeField (rawWord ws 0)) with
  | f3 mk harity hdecode =>
    simp [hdecode ws rfl, decodeF3_eq_error, harity, exists_parameter_succ, or_assoc]
  | f2 mk harity hdecode =>
    simp [hdecode ws rfl, decodeF2_eq_error, harity, exists_parameter_succ]
  | f1 mk harity hdecode =>
    simp [hdecode ws rfl, decodeF1_eq_error, harity, exists_parameter_succ]
  | f0 harity hdecode => simp [hdecode ws rfl, harity]
  | unsupported harity hdecode => simp [hdecode ws rfl, harity]

/-- Settles O11: each format checks exactly the digits within its arity, and the step records the fault undecoded. -/
theorem badModeDigitIsMalformed : Obligations.BadModeDigitIsMalformed := by
  refine ⟨fun ws => ?_, fun s hs hd => ⟨_, Machine.step_undecoded hs hd, ?_, ?_⟩⟩
  · simp only [decode_eq_malformedParameter, modeOfDigit_eq_none_iff_not_mem]
  · rw [Machine.State.afterStep_fault, Machine.State.raise_fault, Machine.faultOfDecode]
  · rw [Machine.State.afterStep_ip, Machine.State.raise_ip]

/-! ### The canonical instruction word -/

theorem Mode.digit_range (m : Mode) : 0 ≤ m.digit ∧ m.digit ≤ 2 := by cases m <;> decide

/-- The mode digit of parameter `j + 1` in the canonical instruction word, 0 for an absent parameter (R93). -/
def modeDigitAt (ps : List Param) (j : Nat) : Int := (ps[j]?).elim 0 fun p => p.mode.digit

theorem modeDigitAt_range (ps : List Param) (j : Nat) : 0 ≤ modeDigitAt ps j ∧ modeDigitAt ps j ≤ 2 := by
  unfold modeDigitAt
  cases ps[j]? with
  | none => simp
  | some p => exact p.mode.digit_range

theorem Instr.opcode_range (i : Instr) : i.opcode < 100 := by cases i <;> simp [Instr.opcode]

/-- The canonical instruction word, digit by digit (R93). -/
theorem canonicalValue_eq (i : Instr) :
    canonicalValue i = i.opcode + 100 * modeDigitAt i.params 0 + 1000 * modeDigitAt i.params 1 +
      10000 * modeDigitAt i.params 2 := by
  cases i <;> simp [canonicalValue, Instr.params, modeDigits, modeDigitAt] <;> ring

/-- The canonical instruction word is a word, whose fields are the opcode and the mode digits (R81, R93). -/
theorem canonicalWord_fields (i : Instr) :
    opcodeField (Word.ofInt (canonicalValue i)) = i.opcode ∧
    ∀ j < 3, digit (Word.ofInt (canonicalValue i)) (j + 2) = modeDigitAt i.params j := by
  have hop := i.opcode_range
  have h0 := modeDigitAt_range i.params 0
  have h1 := modeDigitAt_range i.params 1
  have h2 := modeDigitAt_range i.params 2
  have hval : (Word.ofInt (canonicalValue i)).toInt = i.opcode + 100 * modeDigitAt i.params 0 +
      1000 * modeDigitAt i.params 1 + 10000 * modeDigitAt i.params 2 := by
    rw [Machine.Word.toInt_ofInt, canonicalValue_eq]
    rw [canonicalValue_eq]
    unfold InWord wordMin wordMax
    omega
  have hnn : 0 ≤ (Word.ofInt (canonicalValue i)).toInt := by omega
  constructor
  · rw [opcodeField, Int.tmod_eq_emod_of_nonneg hnn, hval]
    omega
  · intro j hj
    rw [digit_of_nonneg hnn, hval]
    interval_cases j <;> norm_num <;> omega

/-- The first word of an encoding is the canonical instruction word (R93). -/
theorem rawWord_encode_zero (i : Instr) (rest : List Word) :
    rawWord (encode i ++ rest) 0 = Word.ofInt (canonicalValue i) := rfl

/-- Decoding the encoding of an instruction, whatever words follow it, gives the instruction back (R80, R93). -/
theorem decode_encode_append (i : Instr) (rest : List Word) : decode (encode i ++ rest) = .ok i := by
  obtain ⟨hop, hdigit⟩ := canonicalWord_fields i
  rw [← rawWord_encode_zero i rest] at hop hdigit
  have m1 := hdigit 0 (by decide)
  have m2 := hdigit 1 (by decide)
  have m3 := hdigit 2 (by decide)
  cases i with
  | add p1 p2 p3 => exact (decode_add hop).trans (decodeF3_eq_ok.mpr ⟨p1.mode, p2.mode, p3.mode, m1, m2, m3, rfl⟩)
  | mul p1 p2 p3 => exact (decode_mul hop).trans (decodeF3_eq_ok.mpr ⟨p1.mode, p2.mode, p3.mode, m1, m2, m3, rfl⟩)
  | input p1 => exact (decode_input hop).trans (decodeF1_eq_ok.mpr ⟨p1.mode, m1, rfl⟩)
  | output p1 => exact (decode_output hop).trans (decodeF1_eq_ok.mpr ⟨p1.mode, m1, rfl⟩)
  | jt p1 p2 => exact (decode_jt hop).trans (decodeF2_eq_ok.mpr ⟨p1.mode, p2.mode, m1, m2, rfl⟩)
  | jf p1 p2 => exact (decode_jf hop).trans (decodeF2_eq_ok.mpr ⟨p1.mode, p2.mode, m1, m2, rfl⟩)
  | lt p1 p2 p3 => exact (decode_lt hop).trans (decodeF3_eq_ok.mpr ⟨p1.mode, p2.mode, p3.mode, m1, m2, m3, rfl⟩)
  | eq p1 p2 p3 => exact (decode_eq hop).trans (decodeF3_eq_ok.mpr ⟨p1.mode, p2.mode, p3.mode, m1, m2, m3, rfl⟩)
  | arb p1 => exact (decode_arb hop).trans (decodeF1_eq_ok.mpr ⟨p1.mode, m1, rfl⟩)
  | halt => exact decode_halt hop

end Sys2Proof

namespace Sys2Proof.Machine

/-! ### Immediate write targets -/

/-- The immediate target is the first parameter that does not resolve (R56, R117). -/
theorem State.firstFault_immediateTarget {s : State} {p1 p2 : Param} {v1 v2 : Word} (d : Word)
    (h1 : s.readOperand p1 = .ok v1) (h2 : s.readOperand p2 = .ok v2) :
    s.firstFault [.read, .read, .write] [p1, p2, ⟨.immediate, d⟩] = some .invalidAddress := by
  simp only [State.firstFault, h1, h2, State.writeAddress_immediate]

section
variable {mk : Param → Param → Param → Instr} (hmk : mk ∈ [Instr.add, Instr.mul, Instr.lt, Instr.eq])
include hmk

/-- An instruction of format F3 that writes an immediate target is ill formed (R56, R88). -/
theorem not_wf_immediateTarget (p1 p2 : Param) (d : Word) : (mk p1 p2 ⟨.immediate, d⟩).wf = false := by
  simp only [List.mem_cons, List.not_mem_nil, or_false] at hmk
  obtain rfl | rfl | rfl | rfl := hmk <;> simp [Instr.wf, Instr.roles, Instr.params, Param.fits]

/-- The four instructions of format F3 take the first fault of resolving their parameters (R117, R123). -/
theorem exec_firstFault {s : State} {p1 p2 p3 : Param} {k : Fault}
    (h : s.firstFault [.read, .read, .write] [p1, p2, p3] = some k) :
    exec (mk p1 p2 p3) s = .next (s.faultedAfter 4 k) := by
  simp only [List.mem_cons, List.not_mem_nil, or_false] at hmk
  obtain rfl | rfl | rfl | rfl := hmk <;> exact congrArg Host.Outcome.next (State.computeInto_firstFault h)

end

/-- IN takes the fault of its target before it makes a request (R117, R150). -/
theorem exec_input_writeAddress_error {s : State} {p1 : Param} {k : Fault} (h : s.writeAddress p1 = .error k) :
    exec (.input p1) s = .next (s.faultedAfter 2 k) := by
  simp only [exec, execInput, State.writeAddress_advance, h, State.raise_advance]

/-- Settles O13: every encoding decodes, and the immediate target is the first parameter that does not resolve. -/
theorem immediateTargetFaultsAtResolution : Obligations.ImmediateTargetFaultsAtResolution := by
  intro s p1 p2 d rest
  refine ⟨fun mk hmk => ⟨not_wf_immediateTarget hmk p1 p2 d, decode_encode_append _ rest, fun v1 v2 h1 h2 => ?_⟩,
    rfl, decode_encode_append _ rest, ?_⟩
  · exact exec_firstFault hmk (State.firstFault_immediateTarget d h1 h2)
  · exact exec_input_writeAddress_error (State.writeAddress_immediate s d)

end Sys2Proof.Machine
end

section
/-! The statements about the execution cycle (spec/40_execution_cycle.md R112 to R116), with the laws they need: the step of
an instance whose words do not decode, and where each instruction leaves `ip`. -/

namespace Sys2Proof.Machine

/-! ### Decode faults -/

/-- A decode fault is recorded at the address fetched and ends the call, with nothing else changed (R113, R114). -/
theorem step_decodeFault {s : State} {e : DecodeFault} (hs : s.InProgress) (hd : decode s.fetchWords = .error e) :
    step s = .next { s with fault := some ⟨faultOfDecode e, s.ip⟩, nextOutputFrom := none } := by
  have hraised : (s.raise (faultOfDecode e) s.ip).fault ≠ none := by simp
  rw [step_undecoded hs hd, State.afterStep_faulted hraised]
  rfl

/-- Settles O17: each of the three causes is a decode fault of the words fetched, as O10 and O11 say. -/
theorem decodeFaultChangesOnlyTheRecord : Obligations.DecodeFaultChangesOnlyTheRecord := by
  intro s hs
  obtain ⟨unknown_iff, -, unknown_beyond⟩ := unsupportedOpcodeIsUnknown
  obtain ⟨malformed_iff, -⟩ := badModeDigitIsMalformed
  refine ⟨fun hop => ?_, fun hm hip => ?_, fun n j hn h1 hj hdigit => ?_⟩
  · exact step_decodeFault hs ((unknown_iff s.fetchWords).mpr hop)
  · exact step_decodeFault hs (unknown_beyond s hm hip)
  · exact step_decodeFault hs ((malformed_iff s.fetchWords).mpr ⟨n, hn, j, h1, hj, hdigit⟩)

/-! ### The default advance -/

/-- An instruction that stores a result has four words (R82). -/
theorem length_of_resultTarget {i : Instr} {p : Param} (hi : resultTarget i = some p) : i.length = 4 := by
  cases i with
  | add | mul | lt | eq => rfl
  | _ => simp [resultTarget] at hi

/-- Two read parameters without a resolution fault have values (R117). -/
theorem State.readOperands_of_firstFault_none {s : State} {p1 p2 : Param}
    (h : s.firstFault [.read, .read] [p1, p2] = none) :
    ∃ v1 v2, s.readOperand p1 = .ok v1 ∧ s.readOperand p2 = .ok v2 := by
  cases h1 : s.readOperand p1 with
  | error k => simp [State.firstFault, h1] at h
  | ok v1 =>
    cases h2 : s.readOperand p2 with
    | error k => simp [State.firstFault, h1, h2] at h
    | ok v2 => exact ⟨v1, v2, rfl, rfl⟩

/-- An instruction of format F2 leaves `ip` past its words, unless its jump is taken to a target that is not negative
(R116, R162). -/
theorem State.jumpWhen_ip (s : State) (test : Word → Bool) (p1 p2 : Param) :
    (s.jumpWhen test p1 p2).ip = s.ip + 3 ∨
    ∃ v1 v2, s.readOperand p1 = .ok v1 ∧ s.readOperand p2 = .ok v2 ∧ test v1 = true ∧ 0 ≤ v2.toInt ∧
      (s.jumpWhen test p1 p2).ip = v2.toInt.toNat := by
  cases hfault : s.firstFault [.read, .read] [p1, p2] with
  | some k => exact .inl (congrArg State.ip (State.jumpWhen_firstFault hfault))
  | none =>
    obtain ⟨v1, v2, h1, h2⟩ := State.readOperands_of_firstFault_none hfault
    cases htest : test v1 with
    | false => exact .inl (congrArg State.ip (State.jumpWhen_untaken h1 h2 htest))
    | true =>
      rcases lt_or_ge v2.toInt 0 with hneg | hnn
      · exact .inl (congrArg State.ip (State.jumpWhen_negative h1 h2 htest hneg))
      · exact .inr ⟨v1, v2, h1, h2, htest, hnn, congrArg State.ip (State.jumpWhen_taken h1 h2 htest hnn)⟩

/-- An instruction that is no jump leaves `ip` past its words, completed or faulted (R116). -/
theorem exec_ip_or_jump {i : Instr} {s t : State} (h : exec i s = .next t) :
    t.ip = s.ip + i.length ∨ ∃ p1 p2, i = .jt p1 p2 ∨ i = .jf p1 p2 := by
  cases exec_next h with
  | faulted k => exact .inl rfl
  | requested p1 k hi => exact .inl (by rw [hi]; rfl)
  | stored p3 a r hi => exact .inl (by rw [length_of_resultTarget hi])
  | received p1 a v hi => exact .inl (by rw [hi]; rfl)
  | emitted p1 v hi => exact .inl (by rw [hi]; rfl)
  | jumped p1 p2 a hi => exact .inr ⟨p1, p2, hi⟩
  | rebased p1 r hi => exact .inl (by rw [hi]; rfl)
  | halted hi => exact .inl (by rw [hi]; rfl)

/-- Settles O31: only the jumps can leave `ip` elsewhere, and they do so at the target of a jump that is taken. -/
theorem defaultAdvance : Obligations.DefaultAdvance := by
  intro i s t h
  rcases exec_ip_or_jump h with hip | ⟨p1, p2, rfl | rfl⟩
  · exact .inl hip
  · obtain rfl : s.jumpWhen wordIsTrue p1 p2 = t := Host.Outcome.next.inj h
    exact (s.jumpWhen_ip wordIsTrue p1 p2).imp_right fun ⟨v1, v2, h1, h2, htest, hnn, hip⟩ =>
      ⟨p1, p2, v1, v2, .inl ⟨rfl, of_decide_eq_true htest⟩, h1, h2, hnn, hip⟩
  · obtain rfl : s.jumpWhen wordIsFalse p1 p2 = t := Host.Outcome.next.inj h
    exact (s.jumpWhen_ip wordIsFalse p1 p2).imp_right fun ⟨v1, v2, h1, h2, htest, hnn, hip⟩ =>
      ⟨p1, p2, v1, v2, .inr ⟨rfl, of_decide_eq_true htest⟩, h1, h2, hnn, hip⟩

end Sys2Proof.Machine
end

section
/-! The statements about the arithmetic instructions (spec/41_arithmetic.md R140, R141), with the laws they need, which are
those of any instruction of format F3: how it decodes, and what it does with the result it computes. -/

namespace Sys2Proof.Machine

/-! ### Format F3 -/

/-- An opcode that selects the decoder of format F3 decodes as the format says (R82, R87). -/
theorem decodesF3_of_decode {op : Int} {mk : Param → Param → Param → Instr}
    (hdecode : ∀ ws, opcodeField (rawWord ws 0) = op → decode ws = decodeF3 mk ws) : DecodesF3 op mk := by
  intro w d1 d2 d3 hop
  rw [hdecode [w, d1, d2, d3] hop]
  constructor
  · intro m1 m2 m3 h1 h2 h3
    exact decodeF3_eq_ok.mpr
      ⟨m1, m2, m3, modeOfDigit_eq_some.mp h1, modeOfDigit_eq_some.mp h2, modeOfDigit_eq_some.mp h3, rfl⟩
  · intro hbad
    exact decodeF3_eq_error.mpr ⟨rfl, hbad⟩

section
variable {mk : Param → Param → Param → Instr} {f : Word → Word → Except Fault Word} {val : Int → Int → Int}
  (hexec : ∀ s p1 p2 p3, exec (mk p1 p2 p3) s = .next (s.computeInto f p1 p2 p3))
include hexec

/-- An instruction of format F3 stores the word its computation answers (R122). -/
theorem storesResult_of_computeInto (hf : ∀ v1 v2 r : Word, r.toInt = val v1.toInt v2.toInt → f v1 v2 = .ok r) :
    StoresResult mk val := by
  intro s p1 p2 p3
  rw [hexec]
  constructor
  · intro v1 v2 r t h1 h2 h3 hr
    exact ⟨fun hlimit => congrArg Host.Outcome.next (State.computeInto_ok h1 h2 h3 (hf v1 v2 r hr) hlimit),
      fun hlimit => congrArg Host.Outcome.next (State.computeInto_exhausted h1 h2 h3 (hf v1 v2 r hr) hlimit)⟩
  · intro k hk
    exact congrArg Host.Outcome.next (State.computeInto_firstFault hk)

/-- An instruction of format F3 records the overflow of its computation and stores nothing (R119, R142). -/
theorem overflowsOutsideWord_of_computeInto
    (hf : ∀ v1 v2 : Word, ¬ InWord (val v1.toInt v2.toInt) → f v1 v2 = .error .arithmeticOverflow) :
    OverflowsOutsideWord mk val := by
  intro s p1 p2 p3 v1 v2 t h1 h2 h3 hr
  rw [hexec, State.computeInto_effect_error h1 h2 h3 (hf v1 v2 hr)]

end

/-! ### ADD and MUL -/

theorem exec_add (s : State) (p1 p2 p3 : Param) : exec (.add p1 p2 p3) s =
    .next (s.computeInto (fun v1 v2 => checkWord (v1.toInt + v2.toInt)) p1 p2 p3) := rfl

theorem exec_mul (s : State) (p1 p2 p3 : Param) : exec (.mul p1 p2 p3) s =
    .next (s.computeInto (fun v1 v2 => checkWord (v1.toInt * v2.toInt)) p1 p2 p3) := rfl

/-- Settles O21: ADD is of format F3, and the range check lets through exactly the sums that are words. -/
theorem addFollowsItsRule : Obligations.AddFollowsItsRule :=
  ⟨decodesF3_of_decode fun _ => decode_add,
    storesResult_of_computeInto exec_add fun _ _ _ => checkWord_of_toInt,
    overflowsOutsideWord_of_computeInto exec_add fun _ _ => checkWord_error⟩

/-- Settles O22: MUL is of format F3, and the range check lets through exactly the products that are words. -/
theorem mulFollowsItsRule : Obligations.MulFollowsItsRule :=
  ⟨decodesF3_of_decode fun _ => decode_mul,
    storesResult_of_computeInto exec_mul fun _ _ _ => checkWord_of_toInt,
    overflowsOutsideWord_of_computeInto exec_mul fun _ _ => checkWord_error⟩

end Sys2Proof.Machine
end

section
/-! The statements about the jumps (spec/43_jumps.md R160 to R162), with the laws they need, which are those of any instruction
of format F2: how it decodes, and where it goes on its test. -/

namespace Sys2Proof.Machine

/-! ### Format F2 -/

/-- An opcode that selects the decoder of format F2 decodes as the format says (R82, R87). -/
theorem decodesF2_of_decode {op : Int} {mk : Param → Param → Instr}
    (hdecode : ∀ ws, opcodeField (rawWord ws 0) = op → decode ws = decodeF2 mk ws) : DecodesF2 op mk := by
  intro w d1 d2 d3 hop
  rw [hdecode [w, d1, d2, d3] hop]
  constructor
  · intro m1 m2 h1 h2
    exact decodeF2_eq_ok.mpr ⟨m1, m2, modeOfDigit_eq_some.mp h1, modeOfDigit_eq_some.mp h2, rfl⟩
  · intro hbad
    exact decodeF2_eq_error.mpr ⟨rfl, hbad⟩

/-- An instruction of format F2 jumps on the values its test accepts, and looks at the sign of the target only then
(R116, R162). -/
theorem jumpsWhen_of_test {mk : Param → Param → Instr} {test : Word → Bool} {taken : Int → Prop}
    (hexec : ∀ s p1 p2, exec (mk p1 p2) s = .next (s.jumpWhen test p1 p2))
    (htest : ∀ v, test v = true ↔ taken v.toInt) : JumpsWhen mk taken := by
  intro s p1 p2
  rw [hexec]
  constructor
  · intro v1 v2 h1 h2
    refine ⟨fun huntaken => ?_, fun htaken hnn => ?_, fun htaken hneg => ?_⟩
    · have hfalse : test v1 = false := Bool.eq_false_iff.mpr (mt (htest v1).mp huntaken)
      rw [State.jumpWhen_untaken h1 h2 hfalse]
    · rw [State.jumpWhen_taken h1 h2 ((htest v1).mpr htaken) hnn]
    · rw [State.jumpWhen_negative h1 h2 ((htest v1).mpr htaken) hneg]
  · intro k hk
    rw [State.jumpWhen_firstFault hk]

/-! ### JT and JF -/

theorem exec_jt (s : State) (p1 p2 : Param) : exec (.jt p1 p2) s = .next (s.jumpWhen wordIsTrue p1 p2) := rfl

theorem exec_jf (s : State) (p1 p2 : Param) : exec (.jf p1 p2) s = .next (s.jumpWhen wordIsFalse p1 p2) := rfl

theorem wordIsTrue_iff (v : Word) : wordIsTrue v = true ↔ v.toInt ≠ 0 := decide_eq_true_iff

theorem wordIsFalse_iff (v : Word) : wordIsFalse v = true ↔ v.toInt = 0 := decide_eq_true_iff

/-- Settles O27: JT is of format F2, and its test accepts every value but 0. -/
theorem jtFollowsItsRule : Obligations.JtFollowsItsRule :=
  ⟨decodesF2_of_decode fun _ => decode_jt, jumpsWhen_of_test exec_jt wordIsTrue_iff⟩

/-- Settles O28: JF is of format F2, and its test accepts 0 alone. -/
theorem jfFollowsItsRule : Obligations.JfFollowsItsRule :=
  ⟨decodesF2_of_decode fun _ => decode_jf, jumpsWhen_of_test exec_jf wordIsFalse_iff⟩

end Sys2Proof.Machine
end

section
/-! The statements about the comparisons (spec/44_compare.md R170 to R172), with the laws they need: the word a comparison
writes, and what any comparison of format F3 stores. -/

namespace Sys2Proof.Machine

/-! ### The word a comparison writes -/

/-- The word a comparison writes has the value 1 or 0 (R170, R171). -/
theorem truthWord_toInt (b : Bool) : (truthWord b).toInt = if b then 1 else 0 := by cases b <;> rfl

theorem lessThan_iff (v1 v2 : Word) : lessThan v1 v2 = true ↔ v1.toInt < v2.toInt := decide_eq_true_iff

theorem equalTo_iff (v1 v2 : Word) : equalTo v1 v2 = true ↔ v1.toInt = v2.toInt := decide_eq_true_iff

/-- A comparison of format F3 stores 1 where the relation it tests holds of the values and 0 elsewhere: it has no fault of
its own, and the word it writes is the only one of that value (R170 to R172). -/
theorem storesResult_of_comparison {mk : Param → Param → Param → Instr} {test : Word → Word → Bool}
    {related : Int → Int → Prop} [∀ a b, Decidable (related a b)]
    (hexec : ∀ s p1 p2 p3, exec (mk p1 p2 p3) s =
      .next (s.computeInto (fun v1 v2 => .ok (truthWord (test v1 v2))) p1 p2 p3))
    (htest : ∀ v1 v2, test v1 v2 = true ↔ related v1.toInt v2.toInt) :
    StoresResult mk (fun v1 v2 => if related v1 v2 then 1 else 0) := by
  refine storesResult_of_computeInto hexec fun v1 v2 r hr => congrArg Except.ok (BitVec.eq_of_toInt_eq ?_)
  simp only [truthWord_toInt, htest, hr]

/-! ### LT and EQ -/

theorem exec_lt (s : State) (p1 p2 p3 : Param) : exec (.lt p1 p2 p3) s =
    .next (s.computeInto (fun v1 v2 => .ok (truthWord (lessThan v1 v2))) p1 p2 p3) := rfl

theorem exec_eq (s : State) (p1 p2 p3 : Param) : exec (.eq p1 p2 p3) s =
    .next (s.computeInto (fun v1 v2 => .ok (truthWord (equalTo v1 v2))) p1 p2 p3) := rfl

/-- Settles O23: LT is of format F3, and its test is the order of the signed values. -/
theorem ltFollowsItsRule : Obligations.LtFollowsItsRule :=
  ⟨decodesF3_of_decode fun _ => decode_lt, storesResult_of_comparison exec_lt lessThan_iff⟩

/-- Settles O24: EQ is of format F3, and its test is the equality of the signed values. -/
theorem eqFollowsItsRule : Obligations.EqFollowsItsRule :=
  ⟨decodesF3_of_decode fun _ => decode_eq, storesResult_of_comparison exec_eq equalTo_iff⟩

end Sys2Proof.Machine
end

section
/-! The statement about ARB (spec/45_relative_base.md R180), with the laws it needs: how an instruction of format F1 decodes,
and what ARB does in each of its cases. -/

namespace Sys2Proof.Machine

/-! ### Format F1 -/

/-- An opcode that selects the decoder of format F1 decodes as the format says (R82, R87). -/
theorem decodesF1_of_decode {op : Int} {mk : Param → Instr}
    (hdecode : ∀ ws, opcodeField (rawWord ws 0) = op → decode ws = decodeF1 mk ws) : DecodesF1 op mk := by
  intro w d1 d2 d3 hop
  rw [hdecode [w, d1, d2, d3] hop]
  constructor
  · intro m1 h1
    exact decodeF1_eq_ok.mpr ⟨m1, modeOfDigit_eq_some.mp h1, rfl⟩
  · intro hbad
    exact decodeF1_eq_error.mpr ⟨rfl, hbad⟩

/-! ### ARB -/

theorem exec_arb (s : State) (p1 : Param) : exec (.arb p1) s = execArb p1 s := rfl

section
variable {s : State} {p1 : Param}

/-- ARB rebases where the range check lets the sum through (R180). -/
theorem execArb_ok {v r : Word} (h1 : s.readOperand p1 = .ok v) (hr : r.toInt = s.rb.toInt + v.toInt) :
    execArb p1 s = .next { s with ip := s.ip + 2, rb := r } := by
  rw [execArb, State.useOperand_ok h1]
  simp only [State.advance_rb, checkWord_of_toInt hr]
  rfl

/-- ARB records the overflow of its sum and keeps the relative base (R142, R180). -/
theorem execArb_overflow {v : Word} (h1 : s.readOperand p1 = .ok v) (hr : ¬ InWord (s.rb.toInt + v.toInt)) :
    execArb p1 s = .next (s.faultedAfter 2 .arithmeticOverflow) := by
  rw [execArb, State.useOperand_ok h1]
  simp only [State.advance_rb, checkWord_error hr]
  rfl

/-- ARB with a parameter that does not resolve (R117). -/
theorem execArb_unresolved {k : Fault} (h1 : s.readOperand p1 = .error k) :
    execArb p1 s = .next (s.faultedAfter 2 k) := by
  rw [execArb, State.useOperand_error h1]

end

/-- Settles O29: ARB is of format F1, and the range check lets through exactly the sums that are words. -/
theorem arbFollowsItsRule : Obligations.ArbFollowsItsRule := by
  refine ⟨decodesF1_of_decode fun _ => decode_arb, fun s p1 => ?_⟩
  rw [exec_arb]
  exact ⟨fun _ _ => execArb_ok, fun _ => execArb_overflow, fun _ => execArb_unresolved⟩

end Sys2Proof.Machine
end

section
/-! The statements about `load` (spec/47_host_interface.md R201 to R203), with the laws they need: where a text is cut, what
trimming takes away, which tokens are valid, and when the words of the tokens make an instance. -/

namespace Sys2Proof.Machine

/-! ### The pieces of a text -/

theorem splitAtCommas_comma (cs : List Char) : splitAtCommas (',' :: cs) = [] :: splitAtCommas cs := by
  simp [splitAtCommas]

theorem splitAtCommas_cons_of_ne {c : Char} {cs p : List Char} {ps : List (List Char)} (hc : c ≠ ',')
    (hcs : splitAtCommas cs = p :: ps) : splitAtCommas (c :: cs) = (c :: p) :: ps := by
  simp [splitAtCommas, hc, hcs]

/-- Every text has a first piece, which may be empty. -/
theorem exists_splitAtCommas_eq_cons (cs : List Char) : ∃ p ps, splitAtCommas cs = p :: ps := by
  induction cs with
  | nil => exact ⟨[], [], rfl⟩
  | cons c cs ih =>
    obtain ⟨p, ps, hcs⟩ := ih
    by_cases hc : c = ','
    · rw [hc, splitAtCommas_comma]
      exact ⟨_, _, rfl⟩
    · exact ⟨_, _, splitAtCommas_cons_of_ne hc hcs⟩

/-- Joining the pieces by commas gives the text back (R201). -/
theorem intercalate_splitAtCommas (cs : List Char) : List.intercalate [','] (splitAtCommas cs) = cs := by
  induction cs with
  | nil => rfl
  | cons c cs ih =>
    obtain ⟨p, ps, hcs⟩ := exists_splitAtCommas_eq_cons cs
    by_cases hc : c = ','
    · rw [hcs] at ih
      rw [hc, splitAtCommas_comma, hcs, List.intercalate_cons_cons, ih]
      rfl
    · rw [splitAtCommas_cons_of_ne hc hcs]
      rw [hcs] at ih
      cases ps with
      | nil => simpa [List.intercalate_singleton] using ih
      | cons p' ps => simpa [List.intercalate_cons_cons] using ih

/-- No piece has a comma in it (R201). -/
theorem comma_not_mem_of_mem_splitAtCommas (cs : List Char) : ∀ p ∈ splitAtCommas cs, ',' ∉ p := by
  induction cs with
  | nil => simp [splitAtCommas]
  | cons c cs ih =>
    obtain ⟨p, ps, hcs⟩ := exists_splitAtCommas_eq_cons cs
    by_cases hc : c = ','
    · rw [hc, splitAtCommas_comma]
      simpa using ih
    · rw [splitAtCommas_cons_of_ne hc hcs]
      simpa [hcs, Ne.symm hc] using ih

/-! ### Trimming -/

theorem isBlank_iff (c : Char) : isBlank c = true ↔ c ∈ [' ', '\t', '\r', '\n'] := by
  simp [isBlank, or_assoc]

theorem not_isBlank_of_head?_dropWhile {p : List Char} {c : Char} (h : (p.dropWhile isBlank).head? = some c) :
    isBlank c = false := by
  simpa [h] using List.head?_dropWhile_not isBlank p

/-- A trimmed piece is the piece less blanks at its two ends (R201). -/
theorem takeWhile_trimPiece_rtakeWhile (p : List Char) :
    p.takeWhile isBlank ++ trimPiece p ++ (p.dropWhile isBlank).rtakeWhile isBlank = p := by
  have hright : trimPiece p ++ (p.dropWhile isBlank).rtakeWhile isBlank = p.dropWhile isBlank :=
    List.rdropWhile_append_rtakeWhile
  rw [List.append_assoc, hright, List.takeWhile_append_dropWhile]

/-- A trimmed piece does not begin with a blank: it begins as the piece does after its leading blanks. -/
theorem not_isBlank_of_head?_trimPiece {p : List Char} {c : Char} (h : (trimPiece p).head? = some c) :
    isBlank c = false := by
  obtain ⟨r, hr⟩ : trimPiece p <+: p.dropWhile isBlank := List.rdropWhile_prefix isBlank _
  obtain ⟨cs, hcs⟩ := List.head?_eq_some_iff.mp h
  refine not_isBlank_of_head?_dropWhile (p := p) ?_
  rw [← hr, hcs]
  rfl

/-- A trimmed piece does not end with a blank. -/
theorem not_isBlank_of_getLast?_trimPiece {p : List Char} {c : Char} (h : (trimPiece p).getLast? = some c) :
    isBlank c = false := by
  rw [trimPiece, List.getLast?_reverse] at h
  exact not_isBlank_of_head?_dropWhile h

/-! ### Tokens -/

theorem naturalValue_eq_some {ds : List Char} {n : Nat} : naturalValue ds = some n ↔
    ds ≠ [] ∧ (∀ c ∈ ds, '0' ≤ c ∧ c ≤ '9') ∧ n = ds.foldl (fun acc c => acc * 10 + (c.toNat - '0'.toNat)) 0 := by
  cases ds with
  | nil => simp [naturalValue]
  | cons c cs =>
    have hvalue : naturalValue (c :: cs) = digitsValue 0 (c :: cs) := rfl
    rw [hvalue, digitsValue_eq_some]
    simp

/-- A minus is no digit. -/
theorem naturalValue_minus (ds : List Char) : naturalValue ('-' :: ds) = none := rfl

theorem integerValue_minus (ds : List Char) :
    integerValue ('-' :: ds) = (naturalValue ds).map fun n : Nat => -(n : Int) := rfl

theorem integerValue_of_head?_ne {p : List Char} (h : p.head? ≠ some '-') :
    integerValue p = (naturalValue p).map fun n : Nat => (n : Int) := by
  unfold integerValue
  split
  · simp at h
  · rfl

/-- `-?[0-9]+`: digits, or a minus before digits (R201). -/
theorem integerValue_eq_some {p : List Char} {x : Int} : integerValue p = some x ↔
    ∃ ds n, naturalValue ds = some n ∧ (p = ds ∧ x = n ∨ p = '-' :: ds ∧ x = -(n : Int)) := by
  by_cases hminus : p.head? = some '-'
  · obtain ⟨ds, rfl⟩ := List.head?_eq_some_iff.mp hminus
    rw [integerValue_minus]
    constructor
    · intro h
      obtain ⟨n, hn, rfl⟩ := Option.map_eq_some_iff.mp h
      exact ⟨ds, n, hn, .inr ⟨rfl, rfl⟩⟩
    · rintro ⟨ds', n, hn, ⟨rfl, -⟩ | ⟨hds, rfl⟩⟩
      · simp [naturalValue_minus] at hn
      · obtain ⟨-, rfl⟩ := List.cons.inj hds
        simp [hn]
  · rw [integerValue_of_head?_ne hminus]
    constructor
    · intro h
      obtain ⟨n, hn, rfl⟩ := Option.map_eq_some_iff.mp h
      exact ⟨p, n, hn, .inl ⟨rfl, rfl⟩⟩
    · rintro ⟨ds, n, hn, ⟨rfl, rfl⟩ | ⟨rfl, -⟩⟩
      · simp [hn]
      · simp at hminus

/-- A valid token is one that denotes the value of a word (R201). -/
theorem tokenWord_eq_some {p : List Char} {w : Word} : tokenWord p = some w ↔ integerValue p = some w.toInt := by
  unfold tokenWord
  cases hx : integerValue p with
  | none => simp
  | some x =>
    by_cases hword : InWord x
    · simp only [if_pos hword, Option.some.injEq]
      constructor
      · rintro rfl
        exact (Word.toInt_ofInt hword).symm
      · rintro rfl
        exact Word.ofInt_toInt w
    · simp only [if_neg hword, reduceCtorEq, Option.some.injEq, false_iff]
      rintro rfl
      exact hword (Word.inWord w)

/-- Settles O41: the pieces, what trimming leaves, the tokens, and the valid tokens. -/
theorem textIsReadAsTokens : Obligations.TextIsReadAsTokens := by
  refine ⟨fun cs => ⟨intercalate_splitAtCommas cs, comma_not_mem_of_mem_splitAtCommas cs⟩, fun p => ?_, fun text => ?_,
    fun p w => ?_⟩
  · refine ⟨_, _, (takeWhile_trimPiece_rtakeWhile p).symm, fun c hc => ?_, fun c hc => ?_⟩
    · rw [← isBlank_iff]
      exact (List.mem_append.mp hc).elim List.mem_takeWhile_imp List.mem_rtakeWhile_imp
    · rw [← isBlank_iff, Bool.not_eq_true]
      exact hc.elim not_isBlank_of_head?_trimPiece not_isBlank_of_getLast?_trimPiece
  · exact List.filter_congr fun p _ => by cases p <;> rfl
  · simp only [tokenWord_eq_some, integerValue_eq_some, naturalValue_eq_some]
    constructor
    · rintro ⟨ds, n, ⟨hne, hdigits, rfl⟩, hp⟩
      exact ⟨ds, hne, hdigits, hp⟩
    · rintro ⟨ds, hne, hdigits, hp⟩
      exact ⟨ds, _, ⟨hne, hdigits, rfl⟩, hp⟩

/-! ### Load -/

/-- The words of a list of tokens are their words, all of them valid (R202). -/
theorem tokenWords_eq_some {ps : List (List Char)} {ws : List Word} :
    tokenWords ps = some ws ↔ ps.map tokenWord = ws.map some := by
  obtain ⟨hnone, hsome⟩ := tokenWords_spec ps
  refine ⟨hsome ws, fun h => ?_⟩
  cases hps : tokenWords ps with
  | none =>
    obtain ⟨p, hp, hbad⟩ := hnone.mp hps
    have hmem : none ∈ ws.map some := h ▸ List.mem_map.mpr ⟨p, hp, hbad⟩
    simp at hmem
  | some ws' =>
    have hmap : ws'.map some = ws.map some := (hsome ws' hps).symm.trans h
    rw [List.map_injective_iff.mpr (Option.some_injective Word) hmap]

section
variable {limit : Option Nat} {host : Nat} {text : String}

/-- A successful `load` has words to place, at least one (R202, R203). -/
theorem load_eq_some {s : State} : load limit host text = some s ↔
    ∃ ws, ws ≠ [] ∧ tokenWords (tokensOf text) = some ws ∧ s = State.loaded limit host ws := by
  unfold load
  cases tokenWords (tokensOf text) with
  | none => simp
  | some ws => cases ws <;> simp [eq_comm]

theorem load_eq_none : load limit host text = none ↔
    tokenWords (tokensOf text) = none ∨ tokenWords (tokensOf text) = some [] := by
  unfold load
  cases tokenWords (tokensOf text) with
  | none => simp
  | some ws => cases ws <;> simp

end

/-- Settles O42: the words of the tokens are missing at an invalid token, and empty when there are no tokens. -/
theorem loadCreatesOrFails : Obligations.LoadCreatesOrFails := by
  intro limit host text
  refine ⟨?_, fun ws hne hws => load_eq_some.mpr ⟨ws, hne, tokenWords_eq_some.mpr hws, rfl⟩⟩
  rw [load_eq_none, (tokenWords_spec _).1, tokenWords_eq_some, List.map_nil, List.map_eq_nil_iff]

/-- Settles O39: the memory of the instance is the list of the tokens' words; the other fields are those of reset. -/
theorem loadedInstanceIsInItsResetState : Obligations.LoadedInstanceIsInItsResetState := by
  intro limit host text s hload
  obtain ⟨ws, hne, hws, rfl⟩ := load_eq_some.mp hload
  exact ⟨ws, tokenWords_eq_some.mp hws, List.length_pos_iff.mpr hne, Memory.read_ofList ws, rfl, Memory.wf_ofList ws,
    rfl, rfl, rfl, rfl, rfl, rfl, rfl, rfl⟩

end Sys2Proof.Machine
end

section
/-! The statements about the other boundary interfaces (spec/47_host_interface.md R204, R206, R207, R211 to R215), with the
laws they need: what a host transaction answers in each Run State, and how an entry-point call begins. -/

namespace Sys2Proof.Machine

/-! ### Patch and adapter binding -/

section
variable {s : State} {a : Nat} {v : Word}

theorem State.patch_idle (hrun : s.run = .idle) (hbelow : beyondLimit s.memLimit a = false) :
    s.patch a v = .next { s with mem := s.mem.write a v } := by
  simp only [State.patch, hrun, State.memWrite_ok hbelow]

theorem State.patch_beyondLimit (hrun : s.run = .idle) (hbeyond : beyondLimit s.memLimit a = true) :
    s.patch a v = .refused .patchBeyondLimit := by
  simp only [State.patch, hrun, State.memWrite_error hbeyond]

theorem State.patch_notIdle (hrun : s.run ≠ .idle) : s.patch a v = .refused .notIdle := by
  unfold State.patch
  split
  · contradiction
  · rfl

theorem State.setInputAdapter_idle {src : Adapter} (hrun : s.run = .idle) :
    s.setInputAdapter src = .next { s with adapter := src } := by
  simp only [State.setInputAdapter, hrun, State.bindAdapter]

theorem State.setInputAdapter_notIdle {src : Adapter} (hrun : s.run ≠ .idle) :
    s.setInputAdapter src = .refused .notIdle := by
  unfold State.setInputAdapter
  split
  · contradiction
  · rfl

end

/-- Settles O43: an accepted patch is `Memory.write`, whose reads `peek` gives. -/
theorem patchThenPeek : Obligations.PatchThenPeek := by
  intro s a v
  exact ⟨fun hrun hbelow => ⟨State.patch_idle hrun hbelow, Memory.read_write_same s.mem a v,
    fun _ => Memory.read_write_other s.mem v⟩, State.patch_beyondLimit, State.patch_notIdle⟩

/-- Settles O44: the Run State decides whether the adapter is bound. -/
theorem adapterIsBoundInIdleOnly : Obligations.AdapterIsBoundInIdleOnly :=
  fun _ _ => ⟨State.setInputAdapter_idle, State.setInputAdapter_notIdle⟩

/-! ### is_running -/

theorem State.isRunning_iff (s : State) : s.isRunning = true ↔ s.run = .running ∨ s.run = .paused := by
  unfold State.isRunning
  cases s.run <;> simp

/-- An instruction that records a fault leaves the Run State as it was (R120, R251). -/
theorem exec_run_of_fault {i : Instr} {s u : State} (hs : s.fault = none) (h : exec i s = .next u) (hu : u.fault ≠ none) :
    u.run = s.run := by
  cases exec_next h with
  | halted => exact absurd hs hu
  | _ => rfl

/-- A step that leaves a fault leaves the instance `Running` (R207, R253). -/
theorem step_running_of_fault {s t : State} (h : step s = .next t) (ht : t.fault ≠ none) : t.run = .running := by
  obtain ⟨⟨hrun, hfault⟩, ⟨e, -, rfl⟩ | ⟨i, u, -, hexec, -, rfl⟩⟩ := step_next h
  · rw [State.afterStep_faulted (by simp)]
    exact hrun
  · rw [State.afterStep_fault] at ht
    rw [State.afterStep_faulted ht]
    exact (exec_run_of_fault hfault hexec ht).trans hrun

/-- Settles O45: `is_running` looks at the Run State only, and a faulting step leaves it `Running`. -/
theorem isRunningReportsRunningAndPaused : Obligations.IsRunningReportsRunningAndPaused :=
  ⟨State.isRunning_iff, fun _ t h ht => t.isRunning_iff.mpr (.inl (step_running_of_fault h ht))⟩

/-! ### Entry-point calls -/

section
variable {s : State} {e : EntryPoint}

theorem State.enter_faulted {r : FaultRecord} (hfault : s.fault = some r) : s.enter e = .returned (.error r.kind) := by
  simp only [State.enter, hfault]

theorem State.enter_halted (hfault : s.fault = none) (hrun : s.run = .halted) :
    s.enter e = .returned (e.haltedResult s.out) := by
  simp only [State.enter, hfault, hrun]

theorem State.enter_inProgress (h : s.InProgress) : s.enter e = .refused .callInProgress := by
  obtain ⟨hrun, hfault⟩ := h
  simp only [State.enter, hfault, hrun]

theorem State.enter_idle (hfault : s.fault = none) (hrun : s.run = .idle) : s.enter e = .entered ((s.setIp 0).begin e) := by
  simp only [State.enter, hfault, hrun]

theorem State.enter_paused (hfault : s.fault = none) (hrun : s.run = .paused) : s.enter e = .entered (s.begin e) := by
  simp only [State.enter, hfault, hrun]

theorem State.call_of_returned {r : CallResult} (h : s.enter e = .returned r) (budget : Nat) :
    s.call e budget = .returned r s := by
  simp only [State.call, h]

theorem State.call_of_refused {q : Refusal} (h : s.enter e = .refused q) (budget : Nat) :
    s.call e budget = .refused q s := by
  simp only [State.call, h]

end

/-- Settles O46: both entry points return at once on a halted instance. -/
theorem callOnHaltedChangesNothing : Obligations.CallOnHaltedChangesNothing :=
  fun _ budget hfault hrun =>
    ⟨State.call_of_returned (State.enter_halted hfault hrun) budget,
      State.call_of_returned (State.enter_halted hfault hrun) budget⟩

/-- Settles O47: a call begins at address 0 in an idle instance and where a paused one stopped. -/
theorem callStartsOrResumes : Obligations.CallStartsOrResumes :=
  fun _ hfault =>
    ⟨fun hrun => ⟨State.enter_idle hfault hrun, State.enter_idle hfault hrun⟩,
      fun hrun => ⟨State.enter_paused hfault hrun, State.enter_paused hfault hrun⟩⟩

/-- Settles O48: the recorded fault is looked at first. -/
theorem callOnFaultedReturnsTheFault : Obligations.CallOnFaultedReturnsTheFault :=
  fun _ _ _ budget hfault => State.call_of_returned (State.enter_faulted hfault) budget

/-- Settles O49: an instance in progress is not entered. -/
theorem reentrantCallIsRefused : Obligations.ReentrantCallIsRefused :=
  fun _ _ budget hprogress => State.call_of_refused (State.enter_inProgress hprogress) budget

end Sys2Proof.Machine
end

section
/-! The statement about the permanence of a fault (spec/60_exceptions.md R252), with the laws it needs: what an accepted
host transaction has done. -/

namespace Sys2Proof.Machine

section
variable {s t : State}

/-- An accepted patch came in `Idle`, below the memory limit, and is one memory write (R204). -/
theorem State.patch_next {a : Nat} {v : Word} (h : s.patch a v = .next t) :
    s.run = .idle ∧ beyondLimit s.memLimit a = false ∧ t = { s with mem := s.mem.write a v } := by
  by_cases hrun : s.run = .idle
  · cases hlimit : beyondLimit s.memLimit a with
    | false =>
      rw [State.patch_idle hrun hlimit] at h
      cases h
      exact ⟨hrun, rfl, rfl⟩
    | true =>
      rw [State.patch_beyondLimit hrun hlimit] at h
      cases h
  · rw [State.patch_notIdle hrun] at h
    cases h

/-- An accepted adapter binding came in `Idle` and replaces the adapter only (R206). -/
theorem State.setInputAdapter_next {src : Adapter} (h : s.setInputAdapter src = .next t) :
    s.run = .idle ∧ t = s.bindAdapter src := by
  by_cases hrun : s.run = .idle
  · rw [State.setInputAdapter_idle hrun] at h
    cases h
    exact ⟨hrun, rfl⟩
  · rw [State.setInputAdapter_notIdle hrun] at h
    cases h

/-- A state with a recorded fault answers no next state (R252). -/
theorem step_ne_next_of_fault (hfault : s.fault ≠ none) : step s ≠ .next t := fun h =>
  have ⟨⟨_, hnone⟩, _⟩ := step_next h
  hfault hnone

end

/-- Settles O57: a step begins without a fault, a call looks at the fault first, and no accepted transaction or message of
the host writes the field. -/
theorem faultIsPermanent : Obligations.FaultIsPermanent := by
  intro s r hfault
  have hstep (t) : step s ≠ .next t := step_ne_next_of_fault (by simp [hfault])
  have hcall (e budget) : s.call e budget = .returned (.error r.kind) s :=
    callOnFaultedReturnsTheFault s r e budget hfault
  refine ⟨hstep, hcall, fun a v t h => ?patch, fun src t h => ?binding, fun v => ?message, ?exit⟩
  case patch =>
    obtain ⟨-, -, rfl⟩ := State.patch_next h
    exact hfault
  case binding =>
    obtain ⟨-, rfl⟩ := State.setInputAdapter_next h
    rwa [State.bindAdapter_fault]
  case message => rwa [State.receiveFromHost_fault]
  case exit => rwa [State.hostExits_fault]

end Sys2Proof.Machine
end

section
/-! The statements about the encoding (spec/30_encoding.md R80 to R83, R86, R93), with the laws they need: the fields of an
instruction word that the decoder looks at, and which words have them. -/

namespace Sys2Proof

/-! ### The fields of an instruction word -/

/-- The instruction word `w` has the opcode of `i`, and in the places of its parameters their mode digits (R81). -/
abbrev HasFieldsOf (w : Word) (i : Instr) : Prop :=
  opcodeField w = i.opcode ∧ ∀ j < i.arity, digit w (j + 2) = modeDigitAt i.params j

theorem Instr.arity_le (i : Instr) : i.arity ≤ 3 := by cases i <;> simp [Instr.arity, Instr.params]

theorem Instr.opcode_pos (i : Instr) : 0 < i.opcode := by cases i <;> simp [Instr.opcode]

theorem arityOf_opcode (i : Instr) : arityOf i.opcode = some i.arity := by cases i <;> rfl

/-- What the decoder has read of the words `ws` when it answers `i`: its fields in the first word, and its raw words after
it (R80, R81, R91). -/
abbrev FieldsRead (ws : List Word) (i : Instr) : Prop :=
  HasFieldsOf (rawWord ws 0) i ∧ i.params.map Param.raw = [rawWord ws 1, rawWord ws 2, rawWord ws 3].take i.arity

section
variable {ws : List Word} {i : Instr} {op : Nat} (hop : opcodeField (rawWord ws 0) = op)
include hop

/-- What the decoder of format F1 reads: one mode digit and one raw word (R82). -/
theorem fields_of_decodeF1 {mk : Param → Instr} (hmk : ∀ p1, (mk p1).opcode = op ∧ (mk p1).params = [p1])
    (h : decodeF1 mk ws = .ok i) : FieldsRead ws i := by
  obtain ⟨m1, h1, rfl⟩ := decodeF1_eq_ok.mp h
  obtain ⟨hopcode, hparams⟩ := hmk ⟨m1, rawWord ws 1⟩
  refine ⟨⟨hopcode ▸ hop, fun j hj => ?_⟩, by simp [Instr.arity, hparams]⟩
  rw [Instr.arity, hparams, List.length_singleton] at hj
  rw [hparams]
  interval_cases j
  exact h1

/-- What the decoder of format F2 reads: two mode digits and two raw words (R82). -/
theorem fields_of_decodeF2 {mk : Param → Param → Instr}
    (hmk : ∀ p1 p2, (mk p1 p2).opcode = op ∧ (mk p1 p2).params = [p1, p2]) (h : decodeF2 mk ws = .ok i) :
    FieldsRead ws i := by
  obtain ⟨m1, m2, h1, h2, rfl⟩ := decodeF2_eq_ok.mp h
  obtain ⟨hopcode, hparams⟩ := hmk ⟨m1, rawWord ws 1⟩ ⟨m2, rawWord ws 2⟩
  refine ⟨⟨hopcode ▸ hop, fun j hj => ?_⟩, by simp [Instr.arity, hparams]⟩
  simp only [Instr.arity, hparams, List.length_cons, List.length_nil] at hj
  rw [hparams]
  interval_cases j
  · exact h1
  · exact h2

/-- What the decoder of format F3 reads: three mode digits and three raw words (R82). -/
theorem fields_of_decodeF3 {mk : Param → Param → Param → Instr}
    (hmk : ∀ p1 p2 p3, (mk p1 p2 p3).opcode = op ∧ (mk p1 p2 p3).params = [p1, p2, p3])
    (h : decodeF3 mk ws = .ok i) : FieldsRead ws i := by
  obtain ⟨m1, m2, m3, h1, h2, h3, rfl⟩ := decodeF3_eq_ok.mp h
  obtain ⟨hopcode, hparams⟩ := hmk ⟨m1, rawWord ws 1⟩ ⟨m2, rawWord ws 2⟩ ⟨m3, rawWord ws 3⟩
  refine ⟨⟨hopcode ▸ hop, fun j hj => ?_⟩, by simp [Instr.arity, hparams]⟩
  simp only [Instr.arity, hparams, List.length_cons, List.length_nil] at hj
  rw [hparams]
  interval_cases j
  · exact h1
  · exact h2
  · exact h3

end

/-- The word of a decoded instruction has its fields, and the words after it are its raw words (R80, R81, R91). -/
theorem fields_of_decode {ws : List Word} {i : Instr} (h : decode ws = .ok i) : FieldsRead ws i := by
  rcases opcode_cases (opcodeField (rawWord ws 0)) with
    hop | hop | hop | hop | hop | hop | hop | hop | hop | hop | hop
  · exact fields_of_decodeF3 hop (fun _ _ _ => ⟨rfl, rfl⟩) (decode_add hop ▸ h)
  · exact fields_of_decodeF3 hop (fun _ _ _ => ⟨rfl, rfl⟩) (decode_mul hop ▸ h)
  · exact fields_of_decodeF1 hop (fun _ => ⟨rfl, rfl⟩) (decode_input hop ▸ h)
  · exact fields_of_decodeF1 hop (fun _ => ⟨rfl, rfl⟩) (decode_output hop ▸ h)
  · exact fields_of_decodeF2 hop (fun _ _ => ⟨rfl, rfl⟩) (decode_jt hop ▸ h)
  · exact fields_of_decodeF2 hop (fun _ _ => ⟨rfl, rfl⟩) (decode_jf hop ▸ h)
  · exact fields_of_decodeF3 hop (fun _ _ _ => ⟨rfl, rfl⟩) (decode_lt hop ▸ h)
  · exact fields_of_decodeF3 hop (fun _ _ _ => ⟨rfl, rfl⟩) (decode_eq hop ▸ h)
  · exact fields_of_decodeF1 hop (fun _ => ⟨rfl, rfl⟩) (decode_arb hop ▸ h)
  · obtain rfl : Instr.halt = i := Except.ok.inj ((decode_halt hop).symm.trans h)
    exact ⟨⟨hop, fun j hj => absurd hj (Nat.not_lt_zero j)⟩, rfl⟩
  · exact absurd ((decode_unknown hop).symm.trans h) (by simp)

/-- Mode digits at a scale are those at 1, scaled (R93). -/
theorem modeDigits_scale (c : Int) (ps : List Param) : modeDigits c ps = c * modeDigits 1 ps := by
  induction ps generalizing c with
  | nil => simp [modeDigits]
  | cons p ps ih =>
    rw [modeDigits, modeDigits, ih (c * 10), ih (1 * 10)]
    ring

theorem modeDigits_nonneg (ps : List Param) : 0 ≤ modeDigits 1 ps := by
  induction ps with
  | nil => exact le_rfl
  | cons p ps ih =>
    have hdigit := p.mode.digit_range
    rw [modeDigits, modeDigits_scale]
    omega

/-- The numbers whose low digits are the mode digits of `ps` are the number of those digits plus a multiple of the power of
ten above them. -/
theorem modeDigitsAt_iff (ps : List Param) {x : Int} (hx : 0 ≤ x) :
    (∀ j < ps.length, x / 10 ^ j % 10 = modeDigitAt ps j) ↔
      ∃ k : Nat, x = modeDigits 1 ps + 10 ^ ps.length * (k : Int) := by
  induction ps generalizing x with
  | nil => simpa [modeDigits] using ⟨x.toNat, by omega⟩
  | cons p ps ih =>
    have hdigit := p.mode.digit_range
    have hhigh (j : Nat) : x / 10 ^ (j + 1) % 10 = x / 10 / 10 ^ j % 10 := by
      rw [pow_succ', Int.ediv_ediv_of_nonneg (by decide)]
    have hhighs : (∀ j < ps.length, x / 10 ^ (j + 1) % 10 = modeDigitAt (p :: ps) (j + 1)) ↔
        ∃ k : Nat, x / 10 = modeDigits 1 ps + 10 ^ ps.length * (k : Int) := by
      simp only [hhigh]
      exact ih (x := x / 10) (by omega)
    have hlow : x / 10 ^ 0 % 10 = modeDigitAt (p :: ps) 0 ↔ x % 10 = p.mode.digit := by
      rw [pow_zero, Int.ediv_one]
      rfl
    have hcons : modeDigits 1 (p :: ps) = p.mode.digit + 10 * modeDigits 1 ps := by
      rw [modeDigits, modeDigits_scale, one_mul, one_mul]
    rw [List.length_cons, Nat.forall_lt_succ_left, hlow, hhighs, hcons, ← exists_and_left]
    refine exists_congr fun k => ?_
    rw [pow_succ', mul_assoc]
    omega

/-- The words with the fields of `i` are its canonical word plus a multiple of the power of ten above its last mode digit
(R86, R93). -/
theorem hasFieldsOf_iff {w : Word} {i : Instr} :
    HasFieldsOf w i ↔ ∃ k : Nat, w.toInt = canonicalValue i + 10 ^ (i.arity + 2) * (k : Int) := by
  have hpos := i.opcode_pos
  have hlt := i.opcode_range
  have hnn := modeDigits_nonneg i.params
  rw [canonicalValue, modeDigits_scale]
  by_cases hw : 0 < w.toInt
  · have hdigit (j : Nat) : digit w (j + 2) = w.toInt / 100 / 10 ^ j % 10 := by
      rw [digit_of_nonneg hw.le, pow_add, mul_comm, ← Int.ediv_ediv_of_nonneg (by decide)]
      rfl
    have hdigits := modeDigitsAt_iff i.params (x := w.toInt / 100) (by omega)
    simp only [← hdigit] at hdigits
    rw [HasFieldsOf, Instr.arity, hdigits, opcodeField, Int.tmod_eq_emod_of_nonneg hw.le, ← exists_and_left]
    refine exists_congr fun k => ?_
    rw [pow_add, mul_comm (10 ^ _) (10 ^ 2), mul_assoc]
    omega
  · refine iff_of_false (fun ⟨hop, _⟩ => hw (opcodeField_pos (hop.symm ▸ Int.natCast_pos.mpr hpos)).1) fun ⟨k, hk⟩ => hw ?_
    have : 0 ≤ (10 : Int) ^ (i.arity + 2) * k := by positivity
    omega


/-- Settles O7: the canonical word has the fields of its instruction, which is all the decoder looks at. -/
theorem decodeOfEncode : Obligations.DecodeOfEncode := decode_encode_append

/-- Settles O8: the words that decode to an instruction are those with its fields, which the canonical word has too. -/
theorem wordsOfAnInstruction : Obligations.WordsOfAnInstruction := by
  intro w d1 d2 d3 i
  rw [← hasFieldsOf_iff]
  constructor
  · exact fields_of_decode (ws := [w, d1, d2, d3])
  · rintro ⟨⟨hop, hdigits⟩, hraw⟩
    obtain ⟨hop', hdigits'⟩ := canonicalWord_fields i
    have harity := i.arity_le
    have hmodes (j : Nat) (h1 : 1 ≤ j) (hj : j ≤ i.arity) :
        digit w (j + 1) = digit (Word.ofInt (canonicalValue i)) (j + 1) := by
      obtain ⟨j, rfl⟩ := Nat.exists_eq_add_of_le' h1
      rw [hdigits j hj, hdigits' j (by omega)]
    have hwords : Word.ofInt (canonicalValue i) :: [d1, d2, d3] = encode i ++ [d1, d2, d3].drop i.arity := by
      rw [encode, hraw, List.cons_append, List.take_append_drop]
    rw [decode_eq_of_modeDigits [d1, d2, d3] (hop.trans hop'.symm) (hop ▸ arityOf_opcode i) hmodes, hwords,
      decode_encode_append]

/-- Settles O12: the decoder run on each of the ten words. -/
theorem sampleWordsDecode : Obligations.SampleWordsDecode := by
  unfold Obligations.SampleWordsDecode
  decide

end Sys2Proof
end

section
/-! The statements about the frames of the instructions and of a step (spec/40_execution_cycle.md section 2,
spec/10_state.md section 8), with the laws they need: one law per field of the state, over every instruction. -/

namespace Sys2Proof.Machine

/-- The parameter a result is stored through has the write role. -/
theorem mem_zip_of_resultTarget {i : Instr} {p : Param} (hi : resultTarget i = some p) :
    (p, Role.write) ∈ i.params.zip i.roles := by
  cases i with
  | add | mul | lt | eq => simp_all [resultTarget, Instr.params, Instr.roles]
  | _ => simp [resultTarget] at hi

/-! ### What an instruction does to each field -/

section
variable {i : Instr} {s t : State} (h : exec i s = .next t)
include h

/-- No instruction touches the control state, but to record its own fault (R119, R120). -/
theorem exec_controlKept : s.ControlKept t := by
  cases exec_next h with
  | faulted k | requested _ k => exact ⟨rfl, rfl, rfl, .inr ⟨k, rfl⟩⟩
  | _ => exact ⟨rfl, rfl, rfl, .inl rfl⟩

/-- An instruction changes memory only at the cell that its write parameter names (R36, R121). -/
theorem exec_mem : t.mem = s.mem ∨
    ∃ p a v, (p, Role.write) ∈ i.params.zip i.roles ∧ s.writeAddress p = .ok a ∧ t.mem = s.mem.write a v := by
  cases exec_next h with
  | stored p a r hi ha => exact .inr ⟨p, a, r, mem_zip_of_resultTarget hi, ha, rfl⟩
  | received p a v hi ha => exact .inr ⟨p, a, v, by simp [hi, Instr.params, Instr.roles], ha, rfl⟩
  | _ => exact .inl rfl

/-- Only ARB changes the relative base (R26, R36). -/
theorem exec_rb : t.rb = s.rb ∨ ∃ p1, i = .arb p1 := by
  cases exec_next h with
  | rebased p1 r hi => exact .inr ⟨p1, hi⟩
  | _ => exact .inl rfl

/-- Only HALT changes the Run State (R27, R36). -/
theorem exec_run : t.run = s.run ∨ i = .halt ∧ t.run = .halted := by
  cases exec_next h with
  | halted hi => exact .inr ⟨hi, rfl⟩
  | _ => exact .inl rfl

/-- Only OUT changes the Output Log, by the value of its parameter (R29, R36, R151). -/
theorem exec_out : t.out = s.out ∨ ∃ p1 v, i = .output p1 ∧ s.readOperand p1 = .ok v ∧ t.out = s.out ++ [v] := by
  cases exec_next h with
  | emitted p1 v hi hv => exact .inr ⟨p1, v, hi, hv, rfl⟩
  | _ => exact .inl rfl

/-- Only IN changes the cursor, by one (R30, R36, R150). -/
theorem exec_cursor : t.cursor = s.cursor ∨ ∃ p1, i = .input p1 ∧ t.cursor = s.cursor + 1 := by
  cases exec_next h with
  | requested p1 k hi => exact .inr ⟨p1, hi, rfl⟩
  | received p1 a v hi => exact .inr ⟨p1, hi, rfl⟩
  | _ => exact .inl rfl

/-- An instruction without a write parameter changes no memory. -/
theorem exec_mem_of_no_write (hi : Role.write ∉ i.roles) : t.mem = s.mem :=
  (exec_mem h).resolve_right fun ⟨_, _, _, hp, _⟩ => hi (List.of_mem_zip hp).2

/-- An instruction whose one write parameter is `p` changes no memory but the cell that `p` names, and none where `p` names
no cell. -/
theorem exec_mem_frame {p : Param} (hi : ∀ q, (q, Role.write) ∈ i.params.zip i.roles → q = p) :
    (∀ a, s.writeAddress p = .ok a → ∀ b, b ≠ a → t.mem.read b = s.mem.read b) ∧
    (∀ k, s.writeAddress p = .error k → t.mem = s.mem) := by
  rcases exec_mem h with hmem | ⟨q, a, v, hq, ha, hmem⟩
  · simp [hmem]
  · obtain rfl := hi q hq
    rw [hmem, ha]
    refine ⟨fun a' ha' b hb => ?_, fun k hk => absurd hk (by simp)⟩
    obtain rfl := Except.ok.inj ha'
    exact Memory.read_write_other s.mem v hb

end

/-! ### The frames of the instructions -/

/-- Settles O32: the third parameter is the write parameter of the four instructions, which write no other field. -/
theorem storingInstructionsFrame : Obligations.StoringInstructionsFrame := by
  intro mk hmk s t p1 p2 p3 h
  simp only [List.mem_cons, List.not_mem_nil, or_false] at hmk
  have hwrites : ∀ q, (q, Role.write) ∈ (mk p1 p2 p3).params.zip (mk p1 p2 p3).roles → q = p3 := by
    obtain rfl | rfl | rfl | rfl := hmk <;> simp [Instr.params, Instr.roles]
  have hother : (∀ q, mk p1 p2 p3 ≠ .arb q) ∧ mk p1 p2 p3 ≠ .halt ∧ (∀ q, mk p1 p2 p3 ≠ .output q) ∧
      ∀ q, mk p1 p2 p3 ≠ .input q := by
    obtain rfl | rfl | rfl | rfl := hmk <;> simp
  obtain ⟨not_arb, not_halt, not_output, not_input⟩ := hother
  exact ⟨exec_controlKept h, (exec_rb h).resolve_right fun ⟨q, hq⟩ => not_arb q hq,
    (exec_run h).resolve_right fun ⟨hq, _⟩ => not_halt hq, (exec_out h).resolve_right fun ⟨q, _, hq, _⟩ => not_output q hq,
    (exec_cursor h).resolve_right fun ⟨q, hq, _⟩ => not_input q hq, exec_mem_frame h hwrites⟩

/-- IN counts its request when its parameter names a cell, and makes none otherwise (R117, R150). -/
theorem execInput_cursor {s t : State} {p1 : Param} (h : execInput p1 s = .next t) :
    (∀ a, s.writeAddress p1 = .ok a → t.cursor = s.cursor + 1) ∧
    (∀ k, s.writeAddress p1 = .error k → t.cursor = s.cursor) := by
  rcases execInput_cases s p1 with ⟨k, hk, e⟩ | ⟨a, ha, ⟨-, e⟩ | ⟨-, e⟩ | ⟨v, -, -, e⟩ | ⟨v, -, -, e⟩⟩ <;>
    cases e.symm.trans h
  · simp [hk]
  all_goals simp [ha]

/-- Settles O33: the parameter of IN is its write parameter, and its request comes after the parameter is resolved. -/
theorem inputFrame : Obligations.InputFrame := by
  intro s t p1 h
  obtain ⟨mem_other, mem_kept⟩ := exec_mem_frame h (p := p1) (by simp [Instr.params, Instr.roles])
  obtain ⟨cursor_counts, cursor_kept⟩ := execInput_cursor h
  exact ⟨exec_controlKept h, (exec_rb h).resolve_right (by simp), (exec_run h).resolve_right (by simp),
    (exec_out h).resolve_right (by simp), fun a ha => ⟨cursor_counts a ha, mem_other a ha⟩,
    fun k hk => ⟨cursor_kept k hk, mem_kept k hk⟩⟩

/-- Settles O34: none of the five has a write parameter, and each is the one writer of the field it may change. -/
theorem nonStoringInstructionsFrame : Obligations.NonStoringInstructionsFrame := by
  intro s t p1 p2
  refine ⟨fun h => ?output, fun mk hmk h => ?jump, fun h => ?arb, fun h => ?halt⟩
  case output =>
    refine ⟨exec_controlKept h, exec_mem_of_no_write h (by simp [Instr.roles]), (exec_cursor h).resolve_right (by simp),
      (exec_rb h).resolve_right (by simp), (exec_run h).resolve_right (by simp), (exec_out h).imp_right ?_⟩
    rintro ⟨q, v, hq, hv, hout⟩
    obtain rfl := Instr.output.inj hq
    exact ⟨v, hv, hout⟩
  case jump =>
    simp only [List.mem_cons, List.not_mem_nil, or_false] at hmk
    obtain rfl | rfl := hmk <;>
      exact ⟨exec_controlKept h, exec_mem_of_no_write h (by simp [Instr.roles]), (exec_cursor h).resolve_right (by simp),
        (exec_rb h).resolve_right (by simp), (exec_run h).resolve_right (by simp), (exec_out h).resolve_right (by simp)⟩
  case arb =>
    exact ⟨exec_controlKept h, exec_mem_of_no_write h (by simp [Instr.roles]), (exec_cursor h).resolve_right (by simp),
      (exec_run h).resolve_right (by simp), (exec_out h).resolve_right (by simp)⟩
  case halt =>
    cases h
    exact ⟨⟨rfl, rfl, rfl, .inl rfl⟩, rfl, rfl, rfl, rfl, rfl⟩

/-! ### The frame of a step -/

/-- Settles O35: each field has the writers of its law, the controller's check writes `run` alone, and only to pause. -/
theorem stepWritesOnlyItsFields : Obligations.StepWritesOnlyItsFields := by
  intro s t h
  obtain ⟨⟨hrun, -⟩, ⟨e, -, rfl⟩ | ⟨i, u, hd, hexec, -, rfl⟩⟩ := step_next h
  · have running := step_running_of_fault h (by simp)
    simp [running]
  · obtain ⟨hadapter, hlimit, -, -⟩ := exec_controlKept hexec
    simp only [State.afterStep_adapter, State.afterStep_memLimit, State.afterStep_rb, State.afterStep_out,
      State.afterStep_cursor, State.afterStep_mem, hd, Except.ok.injEq]
    refine ⟨hadapter, hlimit, (exec_rb hexec).resolve_left, fun hne => ?out, (exec_cursor hexec).resolve_left,
      fun hne => ?mem, fun hhalted => ?halted⟩
    case out =>
      obtain ⟨p1, v, hi, -, hout⟩ := (exec_out hexec).resolve_left hne
      exact ⟨p1, v, hi, hout⟩
    case mem =>
      obtain ⟨p, -, -, hp, -⟩ := (exec_mem hexec).resolve_left hne
      exact ⟨i, rfl, (List.of_mem_zip hp).2⟩
    case halted =>
      rcases u.afterStep_run with hkept | ⟨hpaused, -⟩
      · rcases exec_run hexec with hrun' | ⟨hi, -⟩
        · simp [hrun', hrun, hhalted] at hkept
        · exact hi
      · simp [hhalted] at hpaused

/-- Settles O36: a memory write only lengthens the memory, and the log and the cursor have one writer each. -/
theorem stepOnlyExtendsHistory : Obligations.StepOnlyExtendsHistory := by
  intro s t h
  obtain ⟨-, ⟨e, -, rfl⟩ | ⟨i, u, -, hexec, -, rfl⟩⟩ := step_next h
  · simp
  · have hmem : s.mem.len ≤ u.mem.len := by
      rcases exec_mem hexec with hmem | ⟨p, a, v, -, -, hmem⟩
      · rw [hmem]
      · rw [hmem, Memory.len_write]
        exact le_max_left _ _
    obtain ⟨hprefix, hlength⟩ : s.out <+: u.out ∧ u.out.length ≤ s.out.length + 1 := by
      rcases exec_out hexec with hout | ⟨-, v, -, -, hout⟩ <;> simp [hout]
    have hcursor : s.cursor ≤ u.cursor ∧ u.cursor ≤ s.cursor + 1 := by
      rcases exec_cursor hexec with hcursor | ⟨-, -, hcursor⟩ <;> simp [hcursor]
    simp only [State.afterStep_mem, State.afterStep_out, State.afterStep_cursor]
    exact ⟨hmem, hprefix, hlength, hcursor⟩

end Sys2Proof.Machine
end

section
/-! The statements about the faults (spec/60_exceptions.md sections 2 and 4), with the laws they need: what an instruction
that records a fault leaves, and the causes of each kind. -/

namespace Sys2Proof.Machine

/-! ### What a fault leaves -/

/-- An instruction that records a fault records its own address, and has done nothing beside its advance and, for IN, its
request (R119, R120, R253). -/
theorem exec_faulted {i : Instr} {s t : State} {r : FaultRecord} (hs : s.fault = none) (h : exec i s = .next t)
    (hr : t.fault = some r) :
    ∃ k c, r = ⟨k, s.ip⟩ ∧ t = { s.faultedAfter i.length k with cursor := c } ∧
      (c = s.cursor ∨ c = s.cursor + 1 ∧ ∃ p1, i = .input p1) ∧ k ≠ .unknownOpcode ∧ k ≠ .malformedParameter := by
  cases exec_next h with
  | faulted k hi hk =>
    refine ⟨k, s.cursor, (Option.some.inj hr).symm, rfl, .inl rfl, ?_⟩
    rcases hk with (rfl | rfl) | ⟨rfl, -⟩ <;> simp
  | requested p1 k hi hk =>
    refine ⟨k, s.cursor + 1, (Option.some.inj hr).symm, by rw [hi]; rfl, .inr ⟨rfl, p1, hi⟩, ?_⟩
    rcases hk with ⟨rfl, -⟩ | ⟨rfl, -⟩ <;> simp
  | _ => exact absurd (hs.symm.trans hr) (by simp)

/-- Settles O19: a fault is recorded before the decode, or by an instruction that does nothing more. -/
theorem faultLeavesWhatWasDone : Obligations.FaultLeavesWhatWasDone := by
  intro s t r h hr
  have hrunning := step_running_of_fault h (by simp [hr])
  obtain ⟨⟨-, hs⟩, ⟨e, -, rfl⟩ | ⟨i, u, hd, hexec, -, rfl⟩⟩ := step_next h
  · rw [State.afterStep_fault, State.raise_fault, Option.some.injEq] at hr
    subst hr
    have hkind : faultOfDecode e = .unknownOpcode ∨ faultOfDecode e = .malformedParameter := by
      cases e <;> simp [faultOfDecode]
    exact ⟨rfl, hrunning, by simp, by simp, by simp, by simp, fun _ => by simp,
      fun hunknown hmalformed => (hkind.elim hunknown hmalformed).elim⟩
  · obtain ⟨k, c, rfl, rfl, hc, hunknown, hmalformed⟩ := exec_faulted hs hexec (by simpa using hr)
    simpa [hrunning, hunknown, hmalformed, hd] using hc

/-! ### The causes of a fault -/

/-- Why the instruction `i` records a fault in `s`, by the kind it records (R243, R244, R246, R247). -/
inductive State.FaultCause (s : State) (i : Instr) : Fault → Prop where
  /-- A parameter does not resolve. -/
  | parameter {k : Fault} (p : Param) (r : Role) (hp : (p, r) ∈ i.params.zip i.roles) (hcause : s.ResolutionCause k p r) :
      FaultCause s i k
  /-- A taken jump has a negative target. -/
  | target (p1 p2 : Param) (v1 v2 : Word) (hi : i = .jt p1 p2 ∧ v1.toInt ≠ 0 ∨ i = .jf p1 p2 ∧ v1.toInt = 0)
      (h1 : s.readOperand p1 = .ok v1) (h2 : s.readOperand p2 = .ok v2) (hneg : v2.toInt < 0) :
      FaultCause s i .invalidAddress
  /-- The result of ADD or MUL is no word. -/
  | result (p1 p2 p3 : Param) (v1 v2 : Word) (h1 : s.readOperand p1 = .ok v1) (h2 : s.readOperand p2 = .ok v2)
      (hi : i = .add p1 p2 p3 ∧ ¬ InWord (v1.toInt + v2.toInt) ∨ i = .mul p1 p2 p3 ∧ ¬ InWord (v1.toInt * v2.toInt)) :
      FaultCause s i .arithmeticOverflow
  /-- The new relative base is no word. -/
  | base (p1 : Param) (v1 : Word) (hi : i = .arb p1) (h1 : s.readOperand p1 = .ok v1)
      (hbase : ¬ InWord (s.rb.toInt + v1.toInt)) : FaultCause s i .arithmeticOverflow
  /-- The request of IN is answered `Unavailable`. -/
  | request (p1 : Param) (hi : i = .input p1) (hanswer : s.adapter.request s.cursor = .unavailable) :
      FaultCause s i .inputUnavailable
  /-- The write parameter names a cell that the memory limit forbids. -/
  | limit (p : Param) (a : Nat) (hp : (p, Role.write) ∈ i.params.zip i.roles) (ha : s.writeAddress p = .ok a)
      (hlimit : beyondLimit s.memLimit a = true) : FaultCause s i .memoryExhausted

section
variable {s : State} {i : Instr}

/-- The first parameter that does not resolve is a cause. -/
theorem State.FaultCause.of_firstFault {k : Fault} (h : s.firstFault i.roles i.params = some k) : s.FaultCause i k := by
  obtain ⟨p, r, hp, hcause⟩ := State.firstFault_cause h
  exact .parameter p r hp hcause

/-- The causes of a fault of format F3, but for those of the computation. -/
theorem State.computeInto_faultCause {f : Word → Word → Except Fault Word} {p1 p2 p3 : Param} {k : Fault} {a : Nat}
    (hs : s.fault = none) (hparams : i.params = [p1, p2, p3]) (hroles : i.roles = [.read, .read, .write])
    (hf : ∀ v1 v2 k, s.readOperand p1 = .ok v1 → s.readOperand p2 = .ok v2 → f v1 v2 = .error k → s.FaultCause i k)
    (h : (s.computeInto f p1 p2 p3).fault = some ⟨k, a⟩) : s.FaultCause i k := by
  rcases State.computeInto_cases s f p1 p2 p3 with ⟨k', hk, e⟩ | ⟨v1, v2, b, r, -, -, -, -, -, e⟩ <;> rw [e] at h
  · obtain rfl : k' = k := congrArg FaultRecord.kind (Option.some.inj h)
    rcases hk with hk | ⟨v1, v2, h1, h2, hk⟩ | ⟨rfl, b, hb, hlimit⟩
    · exact .of_firstFault (by rwa [hparams, hroles])
    · exact hf v1 v2 k' h1 h2 hk
    · exact .limit p3 b (by simp [hparams, hroles]) hb hlimit
  · exact absurd (hs.symm.trans h) (by simp)

/-- The causes of a fault of format F2. -/
theorem State.jumpWhen_faultCause {test : Word → Bool} {p1 p2 : Param} {k : Fault} {a : Nat} (hs : s.fault = none)
    (hparams : i.params = [p1, p2]) (hroles : i.roles = [.read, .read])
    (htest : ∀ v, test v = true → i = .jt p1 p2 ∧ v.toInt ≠ 0 ∨ i = .jf p1 p2 ∧ v.toInt = 0)
    (h : (s.jumpWhen test p1 p2).fault = some ⟨k, a⟩) : s.FaultCause i k := by
  rcases State.jumpWhen_cases s test p1 p2 with ⟨k', hk, e⟩ | ⟨b, e⟩ <;> rw [e] at h
  · obtain rfl : k' = k := congrArg FaultRecord.kind (Option.some.inj h)
    rcases hk with hk | ⟨rfl, v1, v2, h1, h2, ht, hneg⟩
    · exact .of_firstFault (by rwa [hparams, hroles])
    · exact .target p1 p2 v1 v2 (htest v1 ht) h1 h2 hneg
  · exact absurd (hs.symm.trans h) (by simp)

/-- The fault of a range check comes from a result that is no word (R142). -/
theorem checkWord_eq_error {x : Int} {k : Fault} : checkWord x = .error k ↔ k = .arithmeticOverflow ∧ ¬ InWord x := by
  rcases checkWord_cases x with ⟨r, hr, e⟩ | ⟨hx, e⟩
  · have hx : InWord x := hr ▸ Word.inWord r
    simp [e, hx]
  · simp [e, hx, eq_comm]

/-- Every fault that an instruction records has its cause (R243, R244, R246, R247). -/
theorem exec_faultCause {t : State} {k : Fault} {a : Nat} (hs : s.fault = none) (h : exec i s = .next t)
    (hk : t.fault = some ⟨k, a⟩) : s.FaultCause i k := by
  cases i with
  | add p1 p2 p3 =>
    cases h
    refine State.computeInto_faultCause hs rfl rfl (fun v1 v2 k h1 h2 hf => ?_) hk
    obtain ⟨rfl, hr⟩ := checkWord_eq_error.mp hf
    exact .result p1 p2 p3 v1 v2 h1 h2 (.inl ⟨rfl, hr⟩)
  | mul p1 p2 p3 =>
    cases h
    refine State.computeInto_faultCause hs rfl rfl (fun v1 v2 k h1 h2 hf => ?_) hk
    obtain ⟨rfl, hr⟩ := checkWord_eq_error.mp hf
    exact .result p1 p2 p3 v1 v2 h1 h2 (.inr ⟨rfl, hr⟩)
  | lt p1 p2 p3 | eq p1 p2 p3 =>
    cases h
    exact State.computeInto_faultCause hs rfl rfl (fun v1 v2 k h1 h2 hf => by cases hf) hk
  | jt p1 p2 =>
    cases h
    exact State.jumpWhen_faultCause hs rfl rfl (fun v hv => .inl ⟨rfl, (wordIsTrue_iff v).mp hv⟩) hk
  | jf p1 p2 =>
    cases h
    exact State.jumpWhen_faultCause hs rfl rfl (fun v hv => .inr ⟨rfl, (wordIsFalse_iff v).mp hv⟩) hk
  | input p1 =>
    rcases execInput_cases s p1 with ⟨k', hp, e⟩ | ⟨b, hb, ⟨-, e⟩ | ⟨hu, e⟩ | ⟨v, -, hlimit, e⟩ | ⟨v, -, -, e⟩⟩ <;>
      cases e.symm.trans h
    · obtain rfl : k' = k := congrArg FaultRecord.kind (Option.some.inj hk)
      exact .parameter p1 .write (by simp [Instr.params, Instr.roles]) (State.writeAddress_error hp)
    · obtain rfl : Fault.inputUnavailable = k := congrArg FaultRecord.kind (Option.some.inj hk)
      exact .request p1 rfl hu
    · obtain rfl : Fault.memoryExhausted = k := congrArg FaultRecord.kind (Option.some.inj hk)
      exact .limit p1 b (by simp [Instr.params, Instr.roles]) hb hlimit
    · exact absurd (hs.symm.trans hk) (by simp)
  | output p1 =>
    rcases execOutput_cases s p1 with ⟨k', hp, e⟩ | ⟨v, -, e⟩ <;> cases e.symm.trans h
    · obtain rfl : k' = k := congrArg FaultRecord.kind (Option.some.inj hk)
      exact .parameter p1 .read (by simp [Instr.params, Instr.roles]) (State.readOperand_error hp .read)
    · exact absurd (hs.symm.trans hk) (by simp)
  | arb p1 =>
    rcases execArb_cases s p1 with ⟨k', hp, e⟩ | ⟨v, r, -, -, e⟩ <;> cases e.symm.trans h
    · obtain rfl : k' = k := congrArg FaultRecord.kind (Option.some.inj hk)
      rcases hp with hp | ⟨rfl, v, hv, hbase⟩
      · exact .parameter p1 .read (by simp [Instr.params, Instr.roles]) (State.readOperand_error hp .read)
      · exact .base p1 v rfl hv hbase
    · exact absurd (hs.symm.trans hk) (by simp)
  | halt =>
    cases h
    exact absurd (hs.symm.trans hk) (by simp)

end

/-- The request that is answered `Unavailable` is counted (R150). -/
theorem exec_cursor_of_inputUnavailable {s t : State} {i : Instr} {a : Nat} (hs : s.fault = none)
    (h : exec i s = .next t) (hk : t.fault = some ⟨.inputUnavailable, a⟩) : t.cursor = s.cursor + 1 := by
  cases exec_next h with
  | faulted k hi hcause =>
    obtain rfl : k = .inputUnavailable := congrArg FaultRecord.kind (Option.some.inj hk)
    simp [IsResolutionFault] at hcause
  | requested => rfl
  | _ => exact absurd (hs.symm.trans hk) (by simp)

/-- Settles O20: what a fault leaves is that of any fault, and each kind has only the causes of its kind. -/
theorem faultKindsByInstruction : Obligations.FaultKindsByInstruction := by
  intro s t i hs h
  refine ⟨fun k a hk => ?leaves, fun a hk => ?invalidAddress, fun a hk => ?arithmeticOverflow,
    fun a hk => ?inputUnavailable, fun a hk => ?memoryExhausted, fun a => ?noDecodeFault, fun hi => ?halt⟩
  case leaves =>
    obtain ⟨k', c, hr, rfl, -⟩ := exec_faulted hs h hk
    exact ⟨congrArg FaultRecord.addr hr, rfl, rfl, rfl, rfl, rfl⟩
  case invalidAddress =>
    cases exec_faultCause hs h hk with
    | parameter p r hp hcause => exact .inl ⟨p, r, hp, by simpa [State.ResolutionCause] using hcause⟩
    | target p1 p2 v1 v2 hi h1 h2 hneg => exact .inr ⟨p1, p2, v1, v2, hi, h1, h2, hneg⟩
  case arithmeticOverflow =>
    cases exec_faultCause hs h hk with
    | parameter p r hp hcause => exact .inl ⟨p, (List.of_mem_zip hp).1, by simpa [State.ResolutionCause] using hcause⟩
    | result p1 p2 p3 v1 v2 h1 h2 hi => exact .inr (.inl ⟨p1, p2, p3, v1, v2, h1, h2, hi⟩)
    | base p1 v1 hi h1 hbase => exact .inr (.inr ⟨p1, v1, hi, h1, hbase⟩)
  case inputUnavailable =>
    cases exec_faultCause hs h hk with
    | parameter p r hp hcause => exact absurd hcause.isResolutionFault (by decide)
    | request p1 hi hanswer => exact ⟨⟨p1, hi⟩, hanswer, exec_cursor_of_inputUnavailable hs h hk⟩
  case memoryExhausted =>
    cases exec_faultCause hs h hk with
    | parameter p r hp hcause => exact absurd hcause.isResolutionFault (by decide)
    | limit p a hp ha hlimit =>
      obtain ⟨bound, hbound, hle⟩ := beyondLimit_eq_true_iff.mp hlimit
      exact ⟨p, bound, a, hp, hbound, ha, hle⟩
  case noDecodeFault =>
    constructor <;> intro hk <;> cases exec_faultCause hs h hk with
    | parameter p r hp hcause => exact absurd hcause.isResolutionFault (by decide)
  case halt =>
    subst hi
    cases h
    exact hs

end Sys2Proof.Machine
end

section
/-! The statements about one step and the controller (spec/40_execution_cycle.md, spec/47_host_interface.md sections 4 and 5),
and about IN, OUT and HALT (spec/42_io.md, spec/46_halt.md), with the laws they need. -/

namespace Sys2Proof.Machine

/-! ### Memory past the end, and literals -/

/-- Settles O3: no limit forbids the write, and what lies past the end reads 0. -/
theorem writePastTheEndNeverFails : Obligations.WritePastTheEndNeverFails := by
  intro s k v hm hlimit
  have hallowed : beyondLimit s.memLimit (s.mem.len + k) = false := by rw [hlimit, beyondLimit]
  exact ⟨⟨_, State.memWrite_ok hallowed, Memory.read_write_same s.mem _ v⟩, fun b hb _ => Memory.read_beyond hm hb⟩

section
variable {s : State} {p p' q q' : Param} (hp : s.readOperand p = s.readOperand p')
  (hq : s.readOperand q = s.readOperand q')
include hp hq

/-- Format F3 sees of its operands their values only (R117, R122). -/
theorem State.computeInto_congr (f : Word → Word → Except Fault Word) (r : Param) :
    s.computeInto f p q r = s.computeInto f p' q' r := by
  simp only [State.computeInto, State.withTwoReads, State.readOperand_advance, hp, hq]

/-- Format F2 sees of its operands their values only (R117, R122). -/
theorem State.jumpWhen_congr (test : Word → Bool) : s.jumpWhen test p q = s.jumpWhen test p' q' := by
  simp only [State.jumpWhen, State.withTwoReads, State.readOperand_advance, hp, hq]

end

/-- Format F1 sees of its operand the value only (R117, R122). -/
theorem State.useOperand_congr {s : State} {p p' : Param} (hp : s.readOperand p = s.readOperand p')
    (effect : Word → State → Except Fault State) : s.useOperand effect p = s.useOperand effect p' := by
  simp only [State.useOperand, State.readOperand_advance, hp]

/-- Settles O6: the two operands have the same value, which is all that the three formats see of them. -/
theorem literalEqualsCellThatHoldsIt : Obligations.LiteralEqualsCellThatHoldsIt := by
  intro s x c p q hc hx lit cell
  have hvalue : s.readOperand lit = s.readOperand cell := by
    rw [State.readOperand_immediate, State.readOperand_position, positionAddress_of_nonneg hc, Except.map, hx]
  refine ⟨fun mk hmk => ?_, fun mk hmk => ?_, fun mk hmk => ?_⟩ <;>
    simp only [List.mem_cons, List.not_mem_nil, or_false] at hmk
  · obtain rfl | rfl | rfl | rfl := hmk <;>
      exact ⟨congrArg Host.Outcome.next (State.computeInto_congr hvalue rfl _ q),
        congrArg Host.Outcome.next (State.computeInto_congr rfl hvalue _ q)⟩
  · obtain rfl | rfl := hmk <;>
      exact ⟨congrArg Host.Outcome.next (State.jumpWhen_congr hvalue rfl _),
        congrArg Host.Outcome.next (State.jumpWhen_congr rfl hvalue _)⟩
  · obtain rfl | rfl := hmk <;> exact congrArg Host.Outcome.next (State.useOperand_congr hvalue _)

/-! ### The controller's check -/

/-- The log has grown in a marked call exactly when it is longer than the mark (R209). -/
theorem State.outputGrew_marked {t : State} {n0 : Nat} (h : t.nextOutputFrom = some n0) :
    t.outputGrew = decide (n0 < t.out.length) := by
  simp only [State.outputGrew, h]

theorem State.outputGrew_unmarked {t : State} (h : t.nextOutputFrom = none) : t.outputGrew = false := by
  simp only [State.outputGrew, h]

/-- Settles O16: the cases of the check, with the mark deciding whether the log has grown. -/
theorem controllerCheckAfterAStep : Obligations.ControllerCheckAfterAStep := by
  intro t
  refine ⟨State.afterStep_faulted, State.afterStep_halted, fun hf hrun hmark => ?_, fun n0 hf hrun hmark => ?_⟩
  · exact State.afterStep_going hf hrun (State.outputGrew_unmarked hmark)
  · have hgrew := State.outputGrew_marked hmark
    exact ⟨fun hlt => State.afterStep_paused hf hrun (by simpa [hgrew] using hlt),
      fun hle => State.afterStep_going hf hrun (by simpa [hgrew] using hle)⟩

/-! ### The step -/

/-- A step of a decoded instruction that completes is followed by the check (R122, R210). -/
theorem step_of_exec {s t : State} {i : Instr} (hs : s.InProgress) (hd : decode s.fetchWords = .ok i)
    (h : exec i s = .next t) : step s = .next t.afterStep := by
  rw [step_decoded hs hd, h, completeStep]

/-- Settles O14: the step of an instance in progress is `exec` followed by the check. -/
theorem stepRunsTheDecodedInstruction : Obligations.StepRunsTheDecodedInstruction := by
  intro s i hs hd
  refine ⟨fun t h => step_of_exec hs hd h, fun k h => ?_, fun q h => ?_⟩
  · rw [step_decoded hs hd, h, completeStep]
  · rw [step_decoded hs hd, h, completeStep]

theorem length_encode (i : Instr) : (encode i).length = i.arity + 1 := by
  simp [encode, Instr.arity]

theorem State.fetchWords_getD (s : State) {j : Nat} (hj : j < 4) : s.fetchWords.getD j 0#64 = s.mem.read (s.ip + j) := by
  interval_cases j <;> rfl

/-- The words fetched begin with an encoding that stands in memory at `ip` (R112). -/
theorem State.fetchWords_of_encode {s : State} {i : Instr}
    (h : ∀ j < (encode i).length, s.mem.read (s.ip + j) = (encode i).getD j 0#64) :
    s.fetchWords = encode i ++ s.fetchWords.drop (encode i).length := by
  have hlen : (encode i).length ≤ 4 := by
    rw [length_encode]
    exact Nat.succ_le_succ i.arity_le
  have htake : s.fetchWords.take (encode i).length = encode i := by
    refine List.ext_getElem (List.length_take_of_le hlen) fun j h1 hj => ?_
    have hword := h j hj
    have hj4 : j < s.fetchWords.length := hj.trans_le hlen
    rw [← State.fetchWords_getD s hj4, List.getD_eq_getElem _ _ hj4,
      List.getD_eq_getElem _ _ hj] at hword
    rwa [List.getElem_take]
  conv_lhs => rw [← List.take_append_drop (encode i).length s.fetchWords, htake]

/-- Settles O15: the words fetched decode to the instruction whose encoding they begin with. -/
theorem stepRunsTheEncodingInMemory : Obligations.StepRunsTheEncodingInMemory := by
  intro s i hs hwords t h
  refine step_of_exec hs ?_ h
  rw [State.fetchWords_of_encode hwords, decode_encode_append]

/-- Settles O18: a recorded fault is answered first, and then only `Running` lets a step run. -/
theorem noStepOutsideACall : Obligations.NoStepOutsideACall := by
  refine ⟨fun s t h => (step_next h).1, fun s r hr => ?_, fun s hf => ⟨fun hrun => ?_, fun hrun => ?_, fun hrun => ?_⟩⟩
  · simp only [step, State.noStepBecause, hr]
  all_goals simp only [step, State.noStepBecause, hf, hrun]

/-- Settles O37: the law of a step under another adapter, outcome by outcome. -/
theorem stepDependsOnTheAnswerAlone : Obligations.StepDependsOnTheAnswerAlone := by
  intro s src hanswer
  have hstep := step_bindAdapter s hanswer
  exact ⟨fun t h => by rw [hstep, h], fun k h => by rw [hstep, h], fun q h => by rw [hstep, h]⟩

/-! ### IN -/

section
variable {s : State} {p1 : Param} {t : Nat} (ht : s.writeAddress p1 = .ok t)
include ht

/-- IN with a target that resolves goes on to its request (R117, R150). -/
theorem exec_input_receive : exec (.input p1) s = (s.advance 2).receiveInto s.ip t := by
  simp only [exec, execInput, State.writeAddress_advance, ht]

/-- IN stores the value that answers its request (R150). -/
theorem exec_input_value {v : Word} (hv : s.adapter.request s.cursor = .value v)
    (hlimit : beyondLimit s.memLimit t = false) :
    exec (.input p1) s = .next { s with ip := s.ip + 2, cursor := s.cursor + 1, mem := s.mem.write t v } := by
  rw [exec_input_receive ht]
  simp only [State.receiveInto, State.advance_adapter, State.advance_cursor, hv]
  rw [State.memWrite_ok (by simpa using hlimit)]
  rfl

/-- IN at or above the memory limit has made its request when it faults (R119, R150). -/
theorem exec_input_exhausted {v : Word} (hv : s.adapter.request s.cursor = .value v)
    (hlimit : beyondLimit s.memLimit t = true) :
    exec (.input p1) s = .next { s.faultedAfter 2 .memoryExhausted with cursor := s.cursor + 1 } := by
  rw [exec_input_receive ht]
  simp only [State.receiveInto, State.advance_adapter, State.advance_cursor, hv]
  rw [State.memWrite_error (by simpa using hlimit)]
  rfl

/-- IN counts the request that is answered `Unavailable` (R150). -/
theorem exec_input_unavailable (hv : s.adapter.request s.cursor = .unavailable) :
    exec (.input p1) s = .next { s.faultedAfter 2 .inputUnavailable with cursor := s.cursor + 1 } := by
  rw [exec_input_receive ht]
  simp only [State.receiveInto, State.advance_adapter, State.advance_cursor, hv]
  rfl

/-- IN waits while its request is not answered (R125). -/
theorem exec_input_waiting (hv : s.adapter.request s.cursor = .noAnswer) :
    exec (.input p1) s = .refused .awaitingInput := by
  rw [exec_input_receive ht]
  simp only [State.receiveInto, State.advance_adapter, State.advance_cursor, hv]

end

/-- Settles O25: IN is of format F1, and does one thing for each answer to its request. -/
theorem inputFollowsItsRule : Obligations.InputFollowsItsRule :=
  ⟨decodesF1_of_decode fun _ => decode_input, fun _ _ => ⟨fun _ => exec_input_writeAddress_error,
    fun _ ht => ⟨fun _ => exec_input_value ht, fun _ => exec_input_exhausted ht, exec_input_unavailable ht,
      exec_input_waiting ht⟩⟩⟩

/-- Past its answers an open channel does not answer (R220). -/
theorem Adapter.request_open {ad : Adapter} {k : Nat} (hopen : ad.after = .noAnswer) (hk : ad.answers.length ≤ k) :
    ad.request k = .noAnswer := by
  simp only [Adapter.request, List.getElem?_eq_none hk, hopen, AfterLast.answer]

/-- A value sent on an open channel answers the ordinal after its last answer (R221). -/
theorem Adapter.request_send {ad : Adapter} (hopen : ad.after = .noAnswer) (v : Word) :
    (ad.send v).request ad.answers.length = .value v := by
  simp [Adapter.send, hopen, Adapter.request]

/-- Settles O38: the request goes past the answers of the channel, and the message sent is its answer. -/
theorem answerLiftsAStuckInput : Obligations.AnswerLiftsAStuckInput := by
  intro s p1 a v ⟨hrun, hf⟩ hd ha hlimit hopen hcursor
  have hs : s.InProgress := ⟨hrun, hf⟩
  have hwaiting := Adapter.request_open hopen hcursor.le
  have hvalue : (s.receiveFromHost v).adapter.request (s.receiveFromHost v).cursor = .value v := by
    rw [State.receiveFromHost_adapter, State.receiveFromHost_cursor, ← hcursor]
    exact Adapter.request_send hopen v
  constructor
  · rw [step_decoded hs hd, exec_input_waiting ha hwaiting, completeStep]
  · refine ⟨_, step_of_exec hs hd (exec_input_value (s := s.receiveFromHost v) ha hvalue hlimit), ?_⟩
    simp [hf]

/-! ### OUT and HALT -/

/-- OUT appends the value of its parameter (R151). -/
theorem exec_output_ok {s : State} {p1 : Param} {v : Word} (hv : s.readOperand p1 = .ok v) :
    exec (.output p1) s = .next { s with ip := s.ip + 2, out := s.out ++ [v] } := by
  simp only [exec, execOutput, State.useOperand_ok hv]
  rfl

/-- OUT with a parameter that does not resolve (R117). -/
theorem exec_output_unresolved {s : State} {p1 : Param} {k : Fault} (hk : s.readOperand p1 = .error k) :
    exec (.output p1) s = .next (s.faultedAfter 2 k) := by
  simp only [exec, execOutput, State.useOperand_error hk]

/-- Settles O26: OUT is of format F1, and the value it appends makes the log longer than the mark of the call. -/
theorem outputFollowsItsRule : Obligations.OutputFollowsItsRule := by
  refine ⟨decodesF1_of_decode fun _ => decode_output, fun s p1 =>
    ⟨fun v hv => ⟨exec_output_ok hv, fun ⟨hrun, hf⟩ hd hmark => ?_⟩, fun k => exec_output_unresolved⟩⟩
  refine (step_of_exec ⟨hrun, hf⟩ hd (exec_output_ok hv)).trans
    (congrArg Host.Outcome.next (State.afterStep_paused hf hrun ?_))
  simp [State.outputGrew, hmark]

theorem exec_halt (s : State) : exec .halt s = .next { s with ip := s.ip + 1, run := .halted } := rfl

/-- Settles O30: the opcode field alone selects HALT, and the check after it ends the call. -/
theorem haltFollowsItsRule : Obligations.HaltFollowsItsRule := by
  refine ⟨fun ws => decode_halt, exec_halt, fun s ⟨hrun, hf⟩ hop => ?_⟩
  exact (step_of_exec ⟨hrun, hf⟩ (decode_halt hop) (exec_halt s)).trans
    (congrArg Host.Outcome.next (State.afterStep_halted hf rfl))

end Sys2Proof.Machine
end

section
/-! The statements about the invariant (spec/10_state.md sections 3 and 5, spec/47_host_interface.md sections 4 and 5) and the
Run State, with the laws they need: the cases of the controller's check, and that every operation keeps the invariant. -/

namespace Sys2Proof.Machine

/-! ### The cases of the controller's check -/

/-- Everything the check can do after a step: end the call on a fault or a halt, pause on an output, or go on (R210). -/
theorem State.afterStep_cases {u : State} (hrun : u.run = .running ∨ u.run = .halted) :
    ((u.fault ≠ none ∨ u.run = .halted) ∧ u.afterStep = { u with nextOutputFrom := none }) ∨
    (u.fault = none ∧ u.run = .running ∧ u.outputGrew = true ∧
      u.afterStep = { u with run := .paused, nextOutputFrom := none }) ∨
    (u.fault = none ∧ u.run = .running ∧ u.outputGrew = false ∧ u.afterStep = u) := by
  by_cases hf : u.fault = none
  · rcases hrun with hrun | hrun
    · cases hgrew : u.outputGrew with
      | true => exact .inr (.inl ⟨hf, hrun, rfl, State.afterStep_paused hf hrun hgrew⟩)
      | false => exact .inr (.inr ⟨hf, hrun, rfl, State.afterStep_going hf hrun hgrew⟩)
    · exact .inl ⟨.inr hrun, State.afterStep_halted hf hrun⟩
  · exact .inl ⟨.inl hf, State.afterStep_faulted hf⟩

/-- An instruction of an instance in progress leaves it `Running` or, without a fault, `Halted`. -/
theorem exec_running_or_halted {i : Instr} {s u : State} (hs : s.InProgress) (h : exec i s = .next u) :
    u.run = .running ∨ u.run = .halted ∧ u.fault = none := by
  obtain ⟨hrun, hf⟩ := hs
  rcases exec_run h with hkept | ⟨rfl, hhalted⟩
  · exact .inl (hkept.trans hrun)
  · cases h
    exact .inr ⟨rfl, hf⟩

/-- A log that has grown is not empty. -/
theorem State.out_ne_nil_of_outputGrew {u : State} (h : u.outputGrew = true) : u.out ≠ [] := by
  cases hmark : u.nextOutputFrom with
  | none => simp [State.outputGrew_unmarked hmark] at h
  | some n0 =>
    rw [State.outputGrew_marked hmark, decide_eq_true_iff] at h
    exact List.ne_nil_of_length_pos (Nat.zero_lt_of_lt h)

/-! ### Every step keeps the invariant -/

/-- The invariant of a running instance: its memory is canonical, and its mark is that of a call without output or fault. -/
theorem State.inv_of_running {u : State} (hmem : u.mem.wf = true) (hrun : u.run = .running)
    (hmark : u.nextOutputFrom ≠ none → u.fault = none ∧ u.nextOutputFrom = some u.out.length) : u.Inv :=
  ⟨hmem, fun _ => hrun, fun hn => ⟨hrun, hmark hn⟩, fun hidle => absurd (hrun.symm.trans hidle) (by decide),
    fun hpaused => absurd (hrun.symm.trans hpaused) (by decide)⟩

/-- The check establishes the invariant after an instruction that kept memory canonical and did not shrink the log below the
mark. -/
theorem State.inv_afterStep {u : State} (hmem : u.mem.wf = true)
    (hrun : u.run = .running ∨ u.run = .halted ∧ u.fault = none)
    (hmark : ∀ n0, u.nextOutputFrom = some n0 → n0 ≤ u.out.length) : u.afterStep.Inv := by
  rcases State.afterStep_cases (hrun.imp_right And.left) with ⟨-, e⟩ | ⟨hf, -, hgrew, e⟩ | ⟨hf, hrunning, hgrew, e⟩ <;> rw [e]
  · rcases hrun with hrun | ⟨hrun, hf⟩
    · exact State.inv_of_running hmem hrun fun hn => absurd rfl hn
    · exact ⟨hmem, fun hne => absurd hf hne, fun hn => absurd rfl hn,
        fun hidle => absurd (hrun.symm.trans hidle) (by decide),
        fun hpaused => absurd (hrun.symm.trans hpaused) (by decide)⟩
  · exact ⟨hmem, fun hne => absurd hf hne, fun hn => absurd rfl hn, nofun,
      fun _ => State.out_ne_nil_of_outputGrew (u := u) hgrew⟩
  · refine State.inv_of_running hmem hrunning fun hn => ⟨hf, ?_⟩
    obtain ⟨n0, hn0⟩ := Option.ne_none_iff_exists'.mp hn
    rw [State.outputGrew_marked hn0, decide_eq_false_iff_not, not_lt] at hgrew
    rw [hn0, le_antisymm (hmark n0 hn0) hgrew]

/-- Settles O55: an instruction keeps what the check needs to establish the invariant. -/
theorem everyStepKeepsTheInvariant : Obligations.EveryStepKeepsTheInvariant := by
  intro s t hs h
  obtain ⟨hmem, -, hmarked, -, -⟩ := hs
  have hmark (n0 : Nat) (hn0 : s.nextOutputFrom = some n0) : n0 = s.out.length := by
    obtain ⟨-, -, hlen⟩ := hmarked (by simp [hn0])
    exact Option.some.inj (hn0.symm.trans hlen)
  obtain ⟨⟨hrun, hf⟩, ⟨e, -, rfl⟩ | ⟨i, u, -, hexec, -, rfl⟩⟩ := step_next h
  · exact State.inv_afterStep hmem (.inl hrun) fun n0 hn0 => (hmark n0 hn0).le
  · refine State.inv_afterStep ?_ (exec_running_or_halted ⟨hrun, hf⟩ hexec) fun n0 hn0 => ?_
    · rcases exec_mem hexec with hkept | ⟨p, a, v, -, -, hwrite⟩
      · rwa [hkept]
      · rw [hwrite]
        exact Memory.wf_write hmem a v
    · rw [exec_mark hexec] at hn0
      rw [hmark n0 hn0]
      rcases exec_out hexec with hkept | ⟨p1, v, -, -, happend⟩
      · rw [hkept]
      · simp [happend]

/-! ### Every state a host can reach meets the invariant -/

/-- Settles O54: a loaded instance has the fields of reset, and the memory of its list of words. -/
theorem resetAndLoadMeetTheInvariant : Obligations.ResetAndLoadMeetTheInvariant := by
  refine ⟨by decide, fun limit host text s h => ?_⟩
  obtain ⟨ws, -, -, rfl⟩ := load_eq_some.mp h
  exact ⟨Memory.wf_ofList ws, fun hf => absurd rfl hf, fun hn => absurd rfl hn, fun _ => ⟨rfl, rfl, rfl, rfl⟩,
    nofun⟩

/-- Settles O40: the fields as the definition gives them. -/
theorem resetStateFields : Obligations.ResetStateFields :=
  ⟨rfl, rfl, rfl, rfl, rfl, rfl, rfl, rfl, rfl, rfl, rfl, fun _ => rfl⟩

/-- An accepted call begins in an idle instance, at address 0, or in a paused one, where it stopped (R212, R213). -/
theorem State.enter_entered {e : EntryPoint} {s t : State} (h : s.enter e = .entered t) :
    s.fault = none ∧ (s.run = .idle ∧ t = (s.setIp 0).begin e ∨ s.run = .paused ∧ t = s.begin e) := by
  cases hf : s.fault with
  | some r => cases (State.enter_faulted hf).symm.trans h
  | none =>
    refine ⟨rfl, ?_⟩
    cases hrun : s.run with
    | idle => exact .inl ⟨rfl, (CallStart.entered.inj ((State.enter_idle hf hrun).symm.trans h)).symm⟩
    | paused => exact .inr ⟨rfl, (CallStart.entered.inj ((State.enter_paused hf hrun).symm.trans h)).symm⟩
    | running => cases (State.enter_inProgress ⟨hrun, hf⟩).symm.trans h
    | halted => cases (State.enter_halted hf hrun).symm.trans h

/-- A call that begins has no mark, or marks the log as it stands (R208, R209). -/
theorem State.inv_begin {s : State} (hmem : s.mem.wf = true) (hf : s.fault = none) (e : EntryPoint) : (s.begin e).Inv := by
  cases e with
  | runToCompletion => exact State.inv_of_running hmem rfl fun hn => absurd rfl hn
  | runToNextOutput => exact State.inv_of_running hmem rfl fun _ => ⟨hf, rfl⟩

/-- Settles O56: by induction on the host's operations; those that bind or change an adapter leave all that the invariant
speaks of. -/
theorem reachableStatesMeetTheInvariant : Obligations.ReachableStatesMeetTheInvariant := by
  intro s hs
  induction hs with
  | reset => exact resetAndLoadMeetTheInvariant.1
  | load h => exact resetAndLoadMeetTheInvariant.2 _ _ _ _ h
  | patch _ h ih =>
    obtain ⟨hmem, hrest⟩ := ih
    obtain ⟨-, -, rfl⟩ := State.patch_next h
    exact ⟨Memory.wf_write hmem _ _, hrest⟩
  | bind _ h ih =>
    obtain ⟨-, rfl⟩ := State.setInputAdapter_next h
    exact ih
  | enter _ h ih =>
    obtain ⟨hmem, -⟩ := ih
    obtain ⟨hf, ⟨-, rfl⟩ | ⟨-, rfl⟩⟩ := State.enter_entered h
    · exact State.inv_begin (s := State.setIp 0 _) hmem hf _
    · exact State.inv_begin hmem hf _
  | send _ ih => exact ih
  | close _ ih => exact ih
  | step _ h ih => exact everyStepKeepsTheInvariant _ _ ih h

/-! ### The Run State over a step -/

/-- OUT without a fault has appended a value and kept the Run State (R151). -/
theorem exec_output_completed {s u : State} {p1 : Param} (h : exec (.output p1) s = .next u) (hu : u.fault = none) :
    ∃ v, u = { s with ip := s.ip + 2, out := s.out ++ [v] } := by
  rcases execOutput_cases s p1 with ⟨k, -, e⟩ | ⟨v, -, e⟩ <;> cases e.symm.trans h
  · cases hu
  · exact ⟨v, rfl⟩

/-- In a call of `run_to_next_output` the log has grown after an instruction exactly when this was an OUT that completed. -/
theorem outputGrew_iff_output {i : Instr} {s u : State} (hs : s.Inv) (h : exec i s = .next u) (hu : u.fault = none) :
    u.outputGrew = true ↔ s.nextOutputFrom ≠ none ∧ ∃ p1, i = .output p1 := by
  obtain ⟨-, -, hmarked, -, -⟩ := hs
  have hmark := exec_mark h
  by_cases hn : s.nextOutputFrom = none
  · simp [hn, State.outputGrew_unmarked (hmark.trans hn)]
  · obtain ⟨-, -, hlen⟩ := hmarked hn
    rw [State.outputGrew_marked (hmark.trans hlen), decide_eq_true_iff]
    constructor
    · intro hlt
      rcases exec_out h with hkept | ⟨p1, v, hi, -⟩
      · exact absurd hlt (by simp [hkept])
      · exact ⟨hn, p1, hi⟩
    · rintro ⟨-, p1, rfl⟩
      obtain ⟨v, rfl⟩ := exec_output_completed h hu
      simp

/-- An instruction halts an instance in progress exactly when it is HALT (R27, R190). -/
theorem exec_halted_iff {i : Instr} {s u : State} (hrun : s.run = .running) (h : exec i s = .next u) :
    u.run = .halted ↔ i = .halt := by
  constructor
  · intro hhalted
    rcases exec_run h with hkept | ⟨hi, -⟩
    · exact absurd (hkept.symm.trans hhalted) (by simp [hrun])
    · exact hi
  · rintro rfl
    cases h
    rfl

/-- Settles O50: the cases of the check, whose pause is that of an OUT and whose halt is that of HALT. -/
theorem runStateTransitionsOfAStep : Obligations.RunStateTransitionsOfAStep := by
  intro s t hinv h
  obtain ⟨⟨hrun, hf⟩, ⟨e, hd, rfl⟩ | ⟨i, u, hd, hexec, -, rfl⟩⟩ := step_next h
  · rw [State.afterStep_faulted (by simp)]
    simp [hd, hrun]
  · have hgrew := outputGrew_iff_output hinv hexec
    have hhalted := exec_halted_iff hrun hexec
    have hcases := exec_running_or_halted ⟨hrun, hf⟩ hexec
    simp only [hd, Except.ok.injEq, ← hhalted]
    rcases State.afterStep_cases (hcases.imp_right And.left) with ⟨hend, e⟩ | ⟨hu, hrunning, hg, e⟩ | ⟨hu, hrunning, hg, e⟩ <;>
      rw [e]
    case inl =>
      have hpaused : u.run ≠ .paused := by rcases hcases with hc | ⟨hc, -⟩ <;> simp [hc]
      have hno : ¬ (u.fault = none ∧ ∃ p1, i = .output p1) := by
        rintro ⟨hu, p1, rfl⟩
        rcases hend with hne | hhalt
        · exact hne hu
        · cases hhalted.mp hhalt
      exact ⟨iff_of_false hpaused fun ⟨_, hout⟩ => hno hout, Iff.rfl, hcases.imp_right fun ⟨hhalt, _⟩ => .inr hhalt,
        fun _ => rfl⟩
    case inr.inl => simp [hu, hrunning, (hgrew hu).mp hg]
    case inr.inr =>
      have hnone : ¬ (s.nextOutputFrom ≠ none ∧ ∃ p1, i = .output p1) := fun hout => by simp [(hgrew hu).mpr hout] at hg
      simpa [hu, hrunning] using hnone

end Sys2Proof.Machine
end

section
/-! The statements about the calls of `run_to_next_output`, the worker and the channel (spec/47_host_interface.md sections 4
and 8), with the laws they need: when a call returns, and what it returns. -/

namespace Sys2Proof.Machine

/-! ### When a call returns -/

section
variable {e : EntryPoint} {s t : State}

/-- A halted instance without a fault ends a call with the halted result (R208, R209). -/
theorem State.callResult_halted (hf : s.fault = none) (hrun : s.run = .halted) :
    s.callResult e = some (e.haltedResult s.out) := by
  simp only [State.callResult, hf, hrun]

/-- A paused instance ends a call with its last output (R209). -/
theorem State.callResult_paused (hf : s.fault = none) (hrun : s.run = .paused) :
    s.callResult e = some (.value (s.out.getLastD 0#64)) := by
  simp only [State.callResult, hf, hrun]

/-- A running instance without a fault goes on (R208, R209). -/
theorem State.callResult_running (hf : s.fault = none) (hrun : s.run = .running) : s.callResult e = none := by
  simp only [State.callResult, hf, hrun]

/-- A fault is what a call returns (R208, R209). -/
theorem State.callResult_faulted {r : FaultRecord} (hf : s.fault = some r) : s.callResult e = some (.error r.kind) := by
  simp only [State.callResult, hf]

/-- A state that ends a call without an error has no fault; its Run State decides the result. -/
theorem State.callResult_eq_some {r : CallResult} (h : s.callResult e = some r) (hr : ∀ k, r ≠ .error k) :
    s.fault = none ∧ (s.run = .halted ∧ r = e.haltedResult s.out ∨ s.run = .paused ∧ r = .value (s.out.getLastD 0#64)) := by
  cases hf : s.fault with
  | some r' => exact absurd (Option.some.inj ((State.callResult_faulted hf).symm.trans h)).symm (hr _)
  | none =>
    refine ⟨rfl, ?_⟩
    simp only [State.callResult, hf] at h
    cases hrun : s.run <;> simp only [hrun, reduceCtorEq, Option.some.injEq] at h
    · exact .inr ⟨rfl, h.symm⟩
    · exact .inl ⟨rfl, h.symm⟩

theorem State.fault_none_of_callResult (h : s.callResult e = none) : s.fault = none := by
  cases hf : s.fault with
  | some r => cases (State.callResult_faulted hf).symm.trans h
  | none => rfl

theorem drive_of_ended {r : CallResult} (budget : Nat) (hstep : step s = .next t) (ht : t.callResult e = some r) :
    drive e (budget + 1) s = .returned r t := by
  simp only [drive, hstep, ht]

theorem drive_of_going (budget : Nat) (hstep : step s = .next t) (ht : t.callResult e = none) :
    drive e (budget + 1) s = drive e budget t := by
  simp only [drive, hstep, ht]

/-- A call that returns no error took a step without a fault, and returned after it or went on. -/
theorem drive_returned {budget : Nat} {r : CallResult} (h : drive e (budget + 1) s = .returned r t)
    (hr : ∀ k, r ≠ .error k) :
    ∃ u, step s = .next u ∧ u.fault = none ∧
      (u.callResult e = some r ∧ t = u ∨ u.callResult e = none ∧ drive e budget u = .returned r t) := by
  cases hstep : step s with
  | next u =>
    refine ⟨u, rfl, ?_⟩
    cases hu : u.callResult e with
    | some r' =>
      cases (drive_of_ended budget hstep hu).symm.trans h
      obtain ⟨hf, -⟩ := State.callResult_eq_some hu hr
      exact ⟨hf, .inl ⟨rfl, rfl⟩⟩
    | none =>
      exact ⟨State.fault_none_of_callResult hu, .inr ⟨rfl, (drive_of_going budget hstep hu).symm.trans h⟩⟩
  | fault k =>
    simp only [drive, hstep, CallEnd.returned.injEq] at h
    obtain ⟨hk, -⟩ := h
    exact absurd hk.symm (hr k)
  | refused q => cases q <;> simp [drive, hstep] at h

/-- A call that returns no error leaves a state that ends it with that result. -/
theorem drive_callResult {budget : Nat} {r : CallResult} (h : drive e budget s = .returned r t)
    (hr : ∀ k, r ≠ .error k) : t.callResult e = some r := by
  induction budget generalizing s with
  | zero => cases h
  | succ budget ih =>
    obtain ⟨u, -, -, ⟨hu, rfl⟩ | ⟨-, hgoes⟩⟩ := drive_returned h hr
    · exact hu
    · exact ih hgoes

/-- A call that returns at once does so with the recorded fault, or on a halted instance (R211, R214). -/
theorem State.enter_returned {r : CallResult} (h : s.enter e = .returned r) :
    (∃ k, r = .error k) ∨ s.run = .halted ∧ r = e.haltedResult s.out := by
  cases hf : s.fault with
  | some r' =>
    cases (State.enter_faulted hf).symm.trans h
    exact .inl ⟨_, rfl⟩
  | none =>
    cases hrun : s.run with
    | halted =>
      cases (State.enter_halted hf hrun).symm.trans h
      exact .inr ⟨rfl, rfl⟩
    | idle => cases (State.enter_idle hf hrun).symm.trans h
    | paused => cases (State.enter_paused hf hrun).symm.trans h
    | running => cases (State.enter_inProgress ⟨hrun, hf⟩).symm.trans h

/-- A call that returns no error came on a halted instance, or was entered and driven to its end. -/
theorem State.call_returned {budget : Nat} {r : CallResult} (h : s.call e budget = .returned r t)
    (hr : ∀ k, r ≠ .error k) :
    (s.run = .halted ∧ r = e.haltedResult s.out ∧ t = s) ∨
    ∃ q, s.enter e = .entered q ∧ drive e budget q = .returned r t := by
  cases henter : s.enter e with
  | returned r' =>
    cases (State.call_of_returned henter budget).symm.trans h
    rcases State.enter_returned henter with ⟨k, hk⟩ | ⟨hrun, hres⟩
    · exact absurd hk (hr k)
    · exact .inl ⟨hrun, hres, rfl⟩
  | entered q => exact .inr ⟨q, rfl, by simpa only [State.call, henter] using h⟩
  | refused q => cases (State.call_of_refused henter budget).symm.trans h

end

/-! ### What a call of `run_to_next_output` returns -/

/-- In `run_to_next_output` the log grows by the one value that is returned (R209). -/
theorem drive_nextOutput_out {budget : Nat} {s t : State} {v : Word} (hs : s.InProgress)
    (hmark : s.nextOutputFrom = some s.out.length) (h : drive .runToNextOutput budget s = .returned (.value v) t) :
    t.out = s.out ++ [v] := by
  induction budget generalizing s with
  | zero => cases h
  | succ budget ih =>
    obtain ⟨hrun, hf⟩ := hs
    obtain ⟨u, hstep, hu, hend⟩ := drive_returned h (by simp)
    rcases step_inNextOutput hrun hf hmark hstep with hne | ⟨-, hhalted, -⟩ | ⟨-, hpaused, w, hout⟩ |
      ⟨-, hrunning, hout, hmark'⟩
    · exact absurd hu hne
    · simp [State.callResult_halted hu hhalted, EntryPoint.haltedResult] at hend
    · obtain ⟨hres, rfl⟩ := hend.resolve_right fun ⟨hres, _⟩ => by simp [State.callResult_paused hu hpaused] at hres
      obtain rfl : w = v := by simpa [State.callResult_paused hu hpaused, hout] using hres
      exact hout
    · obtain ⟨-, hgoes⟩ := hend.resolve_left fun ⟨hres, _⟩ => by simp [State.callResult_running hu hrunning] at hres
      rw [ih ⟨hrunning, hu⟩ hmark' hgoes, hout]

/-- The state that a call is driven from is in progress, and has the log of the state called (R212, R213). -/
theorem State.enter_nextOutput {s q : State} (h : s.enter .runToNextOutput = .entered q) :
    q.InProgress ∧ q.out = s.out ∧ q.nextOutputFrom = some s.out.length := by
  obtain ⟨hf, ⟨-, rfl⟩ | ⟨-, rfl⟩⟩ := State.enter_entered h
  · exact ⟨⟨rfl, hf⟩, rfl, rfl⟩
  · exact ⟨⟨rfl, hf⟩, rfl, rfl⟩

/-- Settles O51: the state that ends the call is paused, and the call has appended the value it returns. -/
theorem nextOutputReturnsTheOneNewValue : Obligations.NextOutputReturnsTheOneNewValue := by
  intro s t budget v h
  rcases State.call_returned h (by simp) with ⟨-, hv, -⟩ | ⟨q, henter, hdrive⟩
  · cases hv
  · obtain ⟨hf, ⟨-, hv⟩ | ⟨hpaused, -⟩⟩ := State.callResult_eq_some (drive_callResult hdrive (by simp)) (by simp)
    · cases hv
    · obtain ⟨hq, hout, hmark⟩ := State.enter_nextOutput henter
      exact ⟨hpaused, hf, hout ▸ drive_nextOutput_out hq (hout ▸ hmark) hdrive⟩

/-- A call that returns `NoOutputProduced` leaves the instance halted (R209, R211). -/
theorem State.halted_of_noOutputProduced {s t : State} {budget : Nat}
    (h : s.runToNextOutput budget = .returned .noOutputProduced t) : t.run = .halted := by
  rcases State.call_returned h (by simp) with ⟨hrun, -, rfl⟩ | ⟨q, -, hdrive⟩
  · exact hrun
  · obtain ⟨-, ⟨hhalted, -⟩ | ⟨-, hv⟩⟩ := State.callResult_eq_some (drive_callResult hdrive (by simp)) (by simp)
    · exact hhalted
    · cases hv

/-- Settles O52: a turn of an instance that is not running is one call, and its result decides the turn. -/
theorem workerForwardsWhatTheCallReturns : Obligations.WorkerForwardsWhatTheCallReturns := by
  intro s t budget hrun
  have hcall : (s.fault.isNone && s.run == .running) = false := by simp [hrun]
  refine ⟨fun v h => ⟨?_, ?_⟩, fun h => ⟨?_, ?_⟩⟩
  · simp [State.workerTurn, hcall, h]
  · obtain ⟨hpaused, -⟩ := nextOutputReturnsTheOneNewValue s t budget v h
    exact t.isRunning_iff.mpr (.inr hpaused)
  · simp [State.workerTurn, hcall, h]
  · simp [State.isRunning, State.halted_of_noOutputProduced h]

/-! ### Channels -/

/-- The values sent on an open channel are its further answers, in order (R221). -/
theorem foldl_send_open (vs answers : List Word) :
    vs.foldl (fun ad v => Adapter.send v ad) { answers := answers, after := .noAnswer } =
      { answers := answers ++ vs, after := .noAnswer } := by
  induction vs generalizing answers with
  | nil => simp
  | cons v vs ih => rw [List.foldl_cons, Adapter.send_open, ih, List.append_assoc, List.singleton_append]

/-- Settles O53: the values sent are the answers listed, and what follows them is what the channel does after its last. -/
theorem channelIsFifo : Obligations.ChannelIsFifo := by
  intro vs k
  rw [foldl_send_open, List.nil_append]
  refine ⟨fun hk => ?_, fun hk => ?_⟩
  · simp [Adapter.close, Adapter.request, hk]
  · simp [Adapter.close, Adapter.request, hk, AfterLast.answer]

end Sys2Proof.Machine
end

section
/-! The statement about the equivalence of the two ways of running (spec/47_host_interface.md section 7), with the simulation
it needs: each step of a run to completion is one under another adapter and in calls of `run_to_next_output`. -/

namespace Sys2Proof.Machine

/-! ### One step in both ways of running -/

/-- Without a mark the check changes nothing (R208). -/
theorem State.afterStep_unmarked {u : State} (hrun : u.run = .running ∨ u.run = .halted) (hmark : u.nextOutputFrom = none) :
    u.afterStep = u := by
  rcases State.afterStep_cases hrun with ⟨-, e⟩ | ⟨-, -, hgrew, -⟩ | ⟨-, -, -, e⟩
  · rw [e, ← hmark]
  · simp [State.outputGrew_unmarked hmark] at hgrew
  · exact e

/-- A step without a fault in a run to completion is an instruction (R122, R208). -/
theorem exec_of_step_unmarked {s t : State} (hmark : s.nextOutputFrom = none) (h : step s = .next t) (ht : t.fault = none) :
    ∃ i, decode s.fetchWords = .ok i ∧ exec i s = .next t := by
  obtain ⟨hs, ⟨e, -, rfl⟩ | ⟨i, u, hd, hexec, -, rfl⟩⟩ := step_next h
  · simp at ht
  · have hrun := (exec_running_or_halted hs hexec).imp_right And.left
    rw [State.afterStep_unmarked hrun ((exec_mark hexec).trans hmark)]
    exact ⟨i, hd, hexec⟩

/-- Under an adapter that answers alike and with another mark, the same instruction runs, and the check sees the mark
(R124, R209). -/
theorem step_rewire {s t : State} {i : Instr} {src : Adapter} (mark : Option Nat) (hs : s.InProgress)
    (hd : decode s.fetchWords = .ok i) (hexec : exec i s = .next t)
    (hanswer : src.request s.cursor = s.adapter.request s.cursor) :
    step (s.rewire src mark) = .next (t.rewire src mark).afterStep := by
  refine step_of_exec hs hd ?_
  rw [exec_rewire s i hanswer, hexec]

/-- `s` paused, under another adapter: how the other way of running stands after an output. -/
def State.pausedUnder (src : Adapter) (s : State) : State :=
  { s with run := .paused, adapter := src, nextOutputFrom := none }

/-- An output pauses the instance that is driven by `run_to_next_output` (R209). -/
theorem State.afterStep_rewire_of_output {u : State} {mark : Nat} (src : Adapter) (hf : u.fault = none)
    (hrun : u.run = .running) (hlt : mark < u.out.length) :
    (u.rewire src (some mark)).afterStep = u.pausedUnder src := by
  have hfault : (u.rewire src (some mark)).fault = none := hf
  rw [State.afterStep_paused hfault hrun (decide_eq_true hlt)]
  rfl

/-- Resuming after that pause gives the running instance, with its log marked (R212). -/
theorem State.begin_pausedUnder {u : State} (hrun : u.run = .running) (src : Adapter) :
    (u.pausedUnder src).begin .runToNextOutput = u.rewire src (some u.out.length) := by
  simp [State.begin, State.pausedUnder, State.rewire, hrun]

/-! ### Draining the outputs -/

/-- What driving by `run_to_next_output` comes to when the call in progress ends so, with `calls` further calls allowed. -/
def drainAfter (budget calls : Nat) : CallEnd → Option (List Word × State)
  | .returned .noOutputProduced t => some ([], t)
  | .returned (.value v) t => (State.drainOutputs budget calls t).map (Prod.map (v :: ·) id)
  | _ => none

theorem State.drainOutputs_succ (budget calls : Nat) (s : State) :
    State.drainOutputs budget (calls + 1) s = drainAfter budget calls (s.runToNextOutput budget) := by
  rw [State.drainOutputs]
  cases s.runToNextOutput budget with
  | returned r t =>
    cases r with
    | value v => cases h : State.drainOutputs budget calls t <;> simp [drainAfter, h, Prod.map]
    | _ => rfl
  | _ => rfl

/-- A call on a paused instance goes on from where it stopped, with the log marked (R212). -/
theorem State.runToNextOutput_paused {s : State} (hf : s.fault = none) (hrun : s.run = .paused) (budget : Nat) :
    s.runToNextOutput budget = drive .runToNextOutput budget (s.begin .runToNextOutput) := by
  simp only [State.runToNextOutput, State.call, State.enter_paused hf hrun]

/-- After the pause at an output, driving goes on with a call that resumes the running instance with its longer log marked
(R209, R212). -/
theorem drainAfter_pausedUnder {u : State} (hf : u.fault = none) (hrun : u.run = .running) (src : Adapter)
    (budget calls : Nat) (v : Word) :
    drainAfter budget (calls + 1) (.returned (.value v) (u.pausedUnder src)) =
      (drainAfter budget calls (drive .runToNextOutput budget (u.rewire src (some u.out.length)))).map
        (Prod.map (v :: ·) id) := by
  have hfault : (u.pausedUnder src).fault = none := hf
  rw [drainAfter, State.drainOutputs_succ, State.runToNextOutput_paused hfault rfl, State.begin_pausedUnder hrun]

/-- The states `u` and `t` are halted ends of the two ways of running, with the same log, memory, relative base and cursor. -/
abbrev State.EndsAs (t u : State) : Prop :=
  u.out = t.out ∧ u.run = .halted ∧ u.mem = t.mem ∧ u.rb = t.rb ∧ u.cursor = t.cursor

/-- The simulation: when a run to completion ends in `t` after at most `n` steps, so do calls of `run_to_next_output` under
an adapter that answers alike, the first of them in progress with the log as it was. -/
theorem drain_of_completion {src : Adapter} {budget : Nat} {log : List Word} {t : State} (n : Nat) :
    ∀ {s : State} {left calls : Nat}, s.InProgress → s.nextOutputFrom = none →
      (∀ k, src.request k = s.adapter.request k) → n ≤ budget → n ≤ left → n ≤ calls →
      drive .runToCompletion n s = .returned (.ok log) t →
      ∃ vs u, drainAfter budget calls (drive .runToNextOutput left (s.rewire src (some s.out.length))) = some (vs, u) ∧
        log = s.out ++ vs ∧ log = t.out ∧ t.EndsAs u := by
  induction n with
  | zero => exact fun _ _ _ _ _ _ h => by cases h
  | succ n ih =>
    intro s left calls ⟨hsrun, hsf⟩ hmark hanswer hbudget hleft hcalls h
    obtain ⟨left, rfl⟩ := Nat.exists_eq_add_of_le' (Nat.one_le_of_lt hleft)
    obtain ⟨calls, rfl⟩ := Nat.exists_eq_add_of_le' (Nat.one_le_of_lt hcalls)
    have hbudget' : n ≤ budget := by omega
    obtain ⟨u, hstep, hu, hend⟩ := drive_returned h (by simp)
    obtain ⟨i, hd, hexec⟩ := exec_of_step_unmarked hmark hstep hu
    have hstep' := step_rewire (some s.out.length) ⟨hsrun, hsf⟩ hd hexec (hanswer s.cursor)
    obtain ⟨hadapter, -⟩ := exec_controlKept hexec
    have hmark' := (exec_mark hexec).trans hmark
    rcases exec_runAndOutput hexec with hne | ⟨-, ⟨hhalted, hout⟩ | ⟨hrun, hout | ⟨v, hout⟩⟩⟩
    · exact absurd hu hne
    · -- The run halts: so does the call in progress, without a value.
      obtain ⟨hres, rfl⟩ := hend.resolve_right fun ⟨hres, _⟩ => by simp [State.callResult_halted hu hhalted] at hres
      obtain rfl : t.out = log := by simpa [State.callResult_halted hu hhalted, EntryPoint.haltedResult] using hres
      rw [State.afterStep_halted (s := t.rewire src _) hu hhalted] at hstep'
      rw [drive_of_ended left hstep' (State.callResult_halted hu hhalted)]
      exact ⟨[], _, rfl, by simp [hout], rfl, rfl, hhalted, rfl, rfl, rfl⟩
    · -- No output: the call in progress goes on too.
      have hrunning := hrun.trans hsrun
      obtain ⟨-, hgoes⟩ := hend.resolve_left fun ⟨hres, _⟩ => by simp [State.callResult_running hu hrunning] at hres
      have hgrew : (u.rewire src (some s.out.length)).outputGrew = false := by simp [State.outputGrew, hout]
      rw [State.afterStep_going (s := u.rewire src _) hu hrunning hgrew] at hstep'
      rw [drive_of_going left hstep' (State.callResult_running hu hrunning), ← hout]
      exact ih ⟨hrunning, hu⟩ hmark' (hadapter ▸ hanswer) (by omega) (by omega) (by omega) hgoes
    · -- An output: the call in progress returns it, and the next call resumes with a full budget.
      have hrunning := hrun.trans hsrun
      obtain ⟨-, hgoes⟩ := hend.resolve_left fun ⟨hres, _⟩ => by simp [State.callResult_running hu hrunning] at hres
      rw [State.afterStep_rewire_of_output src hu hrunning (by simp [hout])] at hstep'
      obtain ⟨vs, w, hdrain, hlog, hends⟩ :=
        ih (calls := calls) ⟨hrunning, hu⟩ hmark' (hadapter ▸ hanswer) hbudget' hbudget' (by omega) hgoes
      have hresult : (u.pausedUnder src).callResult .runToNextOutput = some (.value v) := by
        rw [State.callResult_paused (s := u.pausedUnder src) hu rfl]
        simp [State.pausedUnder, hout]
      rw [drive_of_ended left hstep' hresult, drainAfter_pausedUnder hu hrunning, hdrain]
      exact ⟨v :: vs, w, rfl, by simp [hlog, hout], hends⟩

/-- The two calls begin alike: from the same state, but for the adapter and the mark (R212, R213). -/
theorem State.enter_alike {s : State} (src : Adapter) (hf : s.fault = none) (hrun : s.run = .idle ∨ s.run = .paused) :
    ∃ q, s.enter .runToCompletion = .entered q ∧
      (s.bindAdapter src).enter .runToNextOutput = .entered (q.rewire src (some q.out.length)) ∧
      q.InProgress ∧ q.nextOutputFrom = none ∧ q.out = s.out ∧ q.adapter = s.adapter := by
  rcases hrun with hrun | hrun
  · exact ⟨_, State.enter_idle hf hrun, State.enter_idle (s := s.bindAdapter src) hf hrun, ⟨rfl, hf⟩, rfl, rfl, rfl⟩
  · exact ⟨_, State.enter_paused hf hrun, State.enter_paused (s := s.bindAdapter src) hf hrun, ⟨rfl, hf⟩, rfl, rfl, rfl⟩

/-- Settles O58: the two calls begin alike, and the simulation takes the calls to the end of the run to completion. -/
theorem pauseResumeEquivalence : Obligations.PauseResumeEquivalence := by
  intro s t src budget log hf hrun hanswer h
  obtain ⟨q, henter, henter', hq, hmark, hout, hadapter⟩ := State.enter_alike src hf hrun
  rw [State.runToCompletion, State.call, henter] at h
  obtain ⟨vs, u, hdrain, hlog, rfl, hends⟩ :=
    drain_of_completion budget hq hmark (hadapter ▸ hanswer) le_rfl le_rfl le_rfl h
  refine ⟨vs, u, ?_, hout ▸ hlog, hends⟩
  rw [State.drainOutputs_succ, State.runToNextOutput, State.call, henter']
  exact hdrain

end Sys2Proof.Machine
end
